-- ==== Sys2Proof/Word.lean ====
section
/-! DEFINITION. The one word type of the codec: every quantity it moves is one byte (spec 20_memory.md R41,
30_encoding.md R74). Bits are numbered 7 (most significant) down to 0 (00_scope.md R12). -/

namespace Sys2Proof

/-- One byte: a control byte, an operand, a chip register, a byte on a port (00_scope.md R12, R13). -/
abbrev Byte := BitVec 8

/-- A chip address: one of the 64 of the chip's address space, 6 significant bits (20_memory.md R40). -/
abbrev ChipAddr := BitVec 6

/-- Bit `i` of a byte, as the spec writes `b[i]` (00_scope.md R12). -/
abbrev Byte.bit (b : Byte) (i : Nat) : Bool := b.getLsbD i

/-- A 1-bit flag placed in a byte, the spec's `zext_8` (00_scope.md R14). -/
def Byte.ofBool (b : Bool) : Byte := if b then 1 else 0

end Sys2Proof
end

