-- ==== Sys2Proof/Config.lean ====
section
/-! DEFINITION. What an implementation fixes: the constants of spec 00_scope.md R6, the parameters the spec leaves
OPEN and a model quantifies over, and the free value for an unspecified byte. -/

namespace Sys2Proof

/-- `DEVICE_ADDR`: the chip's address on the bus (00_scope.md R6). -/
abbrev Config.deviceAddr : Byte := 0x68

/-- `MAX_BLOCK`: the most data bytes of one segment (00_scope.md R6; 92_eei_decisions.md D33). -/
abbrev Config.maxBlock : Nat := 32

/-- `ADDR_SPACE`: the bytes of the chip's address space (00_scope.md R6). -/
abbrev Config.addrSpace : Nat := 64

/-- `LAST_ADDR`: the last chip address (00_scope.md R6). -/
abbrev Config.lastAddr : Nat := 0x3F

/-- `CLOCK_BASE`: the address of the seconds register, where the time frame starts (00_scope.md R6). -/
abbrev Config.clockBase : Byte := 0x00

/-- The address of the hours register (10_state.md R27). -/
abbrev Config.hoursAddr : Byte := 0x02

/-- `CONTROL_ADDR`: the address of the control register (00_scope.md R6). -/
abbrev Config.controlAddr : Byte := 0x07

/-- `USER_BASE`: the address of scratch offset 0 (00_scope.md R6). -/
abbrev Config.userBase : Nat := 0x08

/-- `USER_SIZE`: the bytes of scratch memory (00_scope.md R6; 90_conflicts.md C1). -/
abbrev Config.userSize : Nat := 56

/-- `FRAME_LEN`: the bytes of the time frame (00_scope.md R6). -/
abbrev Config.frameLen : Nat := 8

/-- What a chip byte that nothing has written holds. DESIGN CHOICE (log 7), unsafe: the spec gives no power-up
contents (10_state.md R27, R37). -/
abbrev Config.unlistedByte : Byte := 0x00

/-- The spec's `unspecified8`: draw number `n` of a byte to which the spec gives no value. A free value with no body
(log 9), safe: no proof can know it, so a claim holds for every value (00_scope.md R14, 93_implementation_defined.md
U1, U2, U8, U9). -/
opaque Config.unspecified8 : Nat → Byte

/-- The map `FREQ_CODE` as its four 2-bit patterns (00_scope.md R6, 40_config_setters.md R103). The spec leaves it
OPEN, injective; it is a parameter a machine holds and no step writes (log 4). -/
structure FreqCode where
  f1hz   : BitVec 2
  f4khz  : BitVec 2
  f8khz  : BitVec 2
  f32khz : BitVec 2
  deriving DecidableEq, Repr

/-- The spec's one requirement on `FREQ_CODE`: it is injective (40_config_setters.md R103; 90_conflicts.md C3). -/
abbrev FreqCode.Injective (m : FreqCode) : Prop :=
  [m.f1hz, m.f4khz, m.f8khz, m.f32khz].Nodup

/-- The spec's default map, the listing order (92_eei_decisions.md D8). DESIGN CHOICE as the value at reset (log 4). -/
def FreqCode.listingOrder : FreqCode := ⟨0b00, 0b01, 0b10, 0b11⟩

/-- The parameters the spec leaves OPEN and a run keeps: `FREQ_CODE` (log 4) and `PTR_WRAP`, the chip pointer's
successor of 0x3F (log 5) (00_scope.md R6; 20_memory.md R54). -/
structure Params where
  freqCode : FreqCode
  ptrWrap  : ChipAddr
  deriving DecidableEq, Repr

/-- The parameters at `State.reset`: the default map, and `PTR_WRAP` 0x00. DESIGN CHOICE (logs 4 and 5). -/
def Params.default : Params := ⟨FreqCode.listingOrder, 0⟩

/-- `RESET_PCB`. DESIGN CHOICE (log 3), unsafe: the spec leaves it OPEN (10_state.md R37). -/
def Config.resetPcb : Byte := 0x00

/-- `RESET_ACB`. DESIGN CHOICE (log 3), unsafe: the spec leaves it OPEN (10_state.md R37). -/
def Config.resetAcb : Byte := 0x00

/-- `RESET_HALTED`. DESIGN CHOICE (log 3), unsafe: the spec leaves it OPEN (10_state.md R37). -/
def Config.resetHalted : Bool := false

/-- `RESET_USE24`. DESIGN CHOICE (log 3), unsafe: the spec leaves it OPEN (10_state.md R37). -/
def Config.resetUse24 : Bool := false

end Sys2Proof
end

