-- ==== Sys2Proof/Syntax.lean ====
section
/-! DEFINITION. The 21 commands of spec 30_encoding.md R75, one constructor each. Operands are already typed
(30_encoding.md R74): an illegal operand byte is refused by the decoder and is no command (R76, R220). -/

namespace Sys2Proof

/-- The square-wave frequencies, in the order the spec numbers them (30_encoding.md R74, frequency byte). -/
inductive Freq where
  | f1hz
  | f4khz
  | f8khz
  | f32khz
  deriving DecidableEq, Repr

/-- The seven time operands of COMMIT and COMMIT24 in their order (30_encoding.md R71, formats T and U). -/
structure TimeArgs where
  second     : Byte
  minute     : Byte
  hour       : Byte
  dayOfWeek  : Byte
  dayOfMonth : Byte
  month      : Byte
  year       : Byte
  deriving DecidableEq, Repr

/-- The commands. -/
inductive Instr where
  /-- SETHALT b -/
  | setHalt (b : Bool)
  /-- SET24H b -/
  | set24h (b : Bool)
  /-- SQWEN b -/
  | sqwEn (b : Bool)
  /-- SQWFREQ f -/
  | sqwFreq (f : Freq)
  /-- SQWPOL p: true is logic-high -/
  | sqwPol (p : Bool)
  /-- QHALT -/
  | qHalt
  /-- Q24H -/
  | q24h
  /-- QSQWEN -/
  | qSqwEn
  /-- QSQWFREQ -/
  | qSqwFreq
  /-- QSQWPOL -/
  | qSqwPol
  /-- BEGIN -/
  | sync
  /-- COMMIT second, minute, hour, dayOfWeek, dayOfMonth, month, year, isPM -/
  | commit (t : TimeArgs) (pm : Bool)
  /-- COMMIT24 second, minute, hour, dayOfWeek, dayOfMonth, month, year -/
  | commit24 (t : TimeArgs)
  /-- RDTIME -/
  | rdTime
  /-- RDREG a -/
  | rdReg (a : ChipAddr)
  /-- MRD1 o -/
  | mrd1 (o : Byte)
  /-- MRDB o, n -/
  | mrdb (o n : Byte)
  /-- MWR1 o, d -/
  | mwr1 (o d : Byte)
  /-- MWRB o, n, d0 ... d(n-1): `n` is the number of data bytes -/
  | mwrb (o : Byte) (data : List Byte)
  /-- D2B v -/
  | d2b (v : Byte)
  /-- B2D b -/
  | b2d (b : Byte)
  deriving DecidableEq, Repr

end Sys2Proof
end

