-- ==== Sys2Proof/Machine/Flags.lean ====
section
/-! DEFINITION. The flag bits the codec packs and unpacks: the control byte (spec 10_state.md R32), the halt bit of
the seconds byte (R28), the 12/24 and PM bits of the hours byte (R30). -/

namespace Sys2Proof.Machine

/-- The pattern of a frequency, `FREQ_CODE(f)` (40_config_setters.md R103). -/
def freqPattern (m : FreqCode) : Freq → BitVec 2
  | .f1hz => m.f1hz
  | .f4khz => m.f4khz
  | .f8khz => m.f8khz
  | .f32khz => m.f32khz

/-- The frequency whose pattern is `c`: the one value, since `FREQ_CODE` is injective on four values
(41_config_queries_begin.md R123). -/
def freqOfPattern (m : FreqCode) (c : BitVec 2) : Freq :=
  if c = m.f1hz then .f1hz else if c = m.f4khz then .f4khz else if c = m.f8khz then .f8khz else .f32khz

/-- SQWEN: bit 4 set or cleared, nothing else (40_config_setters.md R102). -/
def withSqwEnable (pcb : Byte) (b : Bool) : Byte := if b then pcb ||| 0x10 else pcb &&& 0xEF

/-- SQWFREQ: bits 1:0 replaced by the pattern (40_config_setters.md R103). -/
def withSqwFreq (pcb : Byte) (c : BitVec 2) : Byte := (pcb &&& 0xFC) ||| c.setWidth 8

/-- SQWPOL: logic-high clears bit 7, logic-low sets it (40_config_setters.md R104). -/
def withSqwPolarity (pcb : Byte) (high : Bool) : Byte := if high then pcb &&& 0x7F else pcb ||| 0x80

/-- The square-wave enable bit of a control byte (10_state.md R32). -/
def sqwEnableBit (c : Byte) : Bool := c.bit 4

/-- The square-wave frequency bits of a control byte (10_state.md R32). -/
def sqwFreqBits (c : Byte) : BitVec 2 := c.setWidth 2

/-- The level of a control byte: logic-high when bit 7 is clear (10_state.md R32). -/
def sqwLevelHigh (c : Byte) : Bool := !c.bit 7

/-- The halt bit of a seconds byte (10_state.md R28). -/
def haltBit (seconds : Byte) : Bool := seconds.bit 7

/-- The 12/24 flag of an hours byte: set in 12-hour mode (10_state.md R30). -/
def mode12Bit (hours : Byte) : Bool := hours.bit 6

/-- The PM flag of a 12-hour hours byte (10_state.md R30). -/
def pmBit (hours : Byte) : Bool := hours.bit 5

/-- The flags byte of RDTIME's payload: bit 0 is24Hour, bit 1 isPM (30_encoding.md R73). -/
def timeFlags (is24 pm : Bool) : Byte := Byte.ofBool is24 ||| (if pm then 0x02 else 0x00)

end Sys2Proof.Machine
end

