-- ==== Sys2Proof/Machine/Operands.lean ====
section
/-! DEFINITION. What the commands compute from their operands and from bytes read: BCD conversion (spec
45_bcd_conversion.md R200, R201), the write frame (42_time_commit.md R140 to R145), the decoding of the read frame
(43_time_read.md R160 to R165), scratch offsets, the range check and segments (44_scratch_memory.md R184 to R192).
`none` stands for `unspecified8`, a byte to which the spec gives no value (00_scope.md R14). -/

namespace Sys2Proof.Machine

/-! ### BCD -/

/-- `D2B(v)`, unspecified for 100 and more (45_bcd_conversion.md R200, R206). -/
def toBcd (v : Byte) : Option Byte :=
  if v.toNat ≤ 99 then some (BitVec.ofNat 8 (v.toNat / 10 * 16 + v.toNat % 10)) else none

/-- Both nibbles are decimal digits (00_scope.md glossary, valid BCD byte). -/
def validBcd (b : Byte) : Bool := decide (b.toNat / 16 ≤ 9) && decide (b.toNat % 16 ≤ 9)

/-- `B2D(b)`, unspecified for a byte that is not BCD (45_bcd_conversion.md R201, R206). -/
def ofBcd (b : Byte) : Option Byte :=
  if validBcd b then some (BitVec.ofNat 8 (b.toNat / 16 * 10 + b.toNat % 16)) else none

/-! ### The write frame -/

/-- The BCD of an operand in its range `lo` to `hi`; unspecified outside it (42_time_commit.md R142, R145). -/
def fieldByte (lo hi : Nat) (v : Byte) : Option Byte :=
  if lo ≤ v.toNat ∧ v.toNat ≤ hi then toBcd v else none

/-- The seconds byte with the halt bit in bit 7 (42_time_commit.md R141, R145). -/
def secondsByte (halted : Bool) (second : Byte) : Option Byte :=
  (fieldByte 0 59 second).map (fun b => if halted then b ||| 0x80 else b)

/-- The 12-hour hours byte of an hour 1 to 12 (42_time_commit.md R143). -/
def hour12Byte (hour : Byte) (pm : Bool) : Option Byte :=
  (toBcd hour).map (fun b => 0x40 ||| (if pm then 0x20 else 0x00) ||| b)

/-- The hours byte, with the safety clamp of 12-hour mode: above 12, subtract 12 and infer PM. Hour 0 of 12-hour mode
and hours above 23 are unspecified (42_time_commit.md R143, R145). -/
def hoursByte (use24 : Bool) (hour : Byte) (pm : Bool) : Option Byte :=
  if use24 then fieldByte 0 23 hour
  else if 1 ≤ hour.toNat ∧ hour.toNat ≤ 23 then
    if 12 < hour.toNat then hour12Byte (hour - 12) true else hour12Byte hour pm
  else none

/-- The eight bytes of a commit in address order (42_time_commit.md R140 to R145). -/
def writeFrame (t : TimeArgs) (pm halted use24 : Bool) (pcb : Byte) : List (Option Byte) :=
  [secondsByte halted t.second,
   fieldByte 0 59 t.minute,
   hoursByte use24 t.hour pm,
   fieldByte 1 7 t.dayOfWeek,
   fieldByte 1 31 t.dayOfMonth,
   fieldByte 1 12 t.month,
   fieldByte 0 99 t.year,
   some pcb]

/-! ### The read frame -/

/-- The second of a seconds byte: the halt bit is masked off (43_time_read.md R161). -/
def secondOf (r : Byte) : Option Byte := ofBcd (r &&& 0x7F)

/-- The hour of a 12-hour byte, on its low five bits: unspecified where they are not BCD or decode to 0 or above 12
(43_time_read.md R163, R165). DESIGN CHOICE (log 20), safe: row U9 of 93_implementation_defined.md is taken over the
number R165 and R167 give. -/
def hour12Of (r : Byte) : Option Byte :=
  (ofBcd (r &&& 0x1F)).filter (fun h => decide (1 ≤ h.toNat ∧ h.toNat ≤ 12))

/-- The hour of an hours byte, by its bit 6 (43_time_read.md R163). -/
def hourOf (r : Byte) : Option Byte := if mode12Bit r then hour12Of r else ofBcd (r &&& 0x3F)

/-- The flags of an hours byte; in 24-hour mode isPM is 0 (43_time_read.md R163; log 10). -/
def flagsOf (r : Byte) : Byte := if mode12Bit r then timeFlags false (pmBit r) else timeFlags true false

/-- RDTIME's payload from the eight bytes read at 0x00, 0x01, ... (43_time_read.md R160 to R165, R167). -/
def readPayload (r : List Byte) : List (Option Byte) :=
  [secondOf (r.getD 0 0),
   ofBcd (r.getD 1 0),
   hourOf (r.getD 2 0),
   ofBcd (r.getD 3 0),
   ofBcd (r.getD 4 0),
   ofBcd (r.getD 5 0),
   ofBcd (r.getD 6 0),
   some (flagsOf (r.getD 2 0))]

/-! ### Scratch memory -/

/-- The chip address of a scratch offset (44_scratch_memory.md R184). -/
def userAddr (o : Nat) : Byte := BitVec.ofNat 8 (Config.userBase + o)

/-- The range check, on natural numbers (44_scratch_memory.md R186). -/
def inRange (o extent : Nat) : Bool := decide (o + extent ≤ Config.userSize)

/-- The length of the next segment, with the final-segment shrink (44_scratch_memory.md R189, R192). -/
def segmentLength (pos rem : Nat) : Nat :=
  let seg := min rem Config.maxBlock
  if Config.userBase + pos + seg - 1 > Config.lastAddr then Config.lastAddr - (Config.userBase + pos) + 1 else seg

/-- The segment loop of rule R189, each segment as its offset and its length; `fuel` bounds the passes. -/
def segmentsFrom : Nat → Nat → Nat → List (Nat × Nat)
  | 0, _, _ => []
  | fuel + 1, pos, rem =>
    if rem = 0 then []
    else (pos, segmentLength pos rem) ::
      segmentsFrom fuel (pos + segmentLength pos rem) (rem - segmentLength pos rem)

/-- The segments of a block request in range (44_scratch_memory.md R189): each pass moves at least one byte, so `n`
passes are enough (30_encoding.md R81). -/
def segments (o n : Nat) : List (Nat × Nat) := segmentsFrom n o n

end Sys2Proof.Machine
end

