-- ==== Sys2Proof/Machine/State.lean ====
section
/-! DEFINITION. The state of the machine: the codec's four fields (spec 10_state.md R20 to R24), the chip behind the
bus (R27, R34; 20_memory.md R54), the three ports (00_scope.md R8, R9) and the OPEN parameters (R6), all plain data. -/

namespace Sys2Proof.Machine

/-- One event on the bus port (00_scope.md R9). -/
inductive BusEvent where
  /-- `BusBegin(d)` -/
  | begin (d : Byte)
  /-- `BusWrite(b)` -/
  | write (b : Byte)
  /-- `BusEnd()` -/
  | stop
  /-- `BusRequest(d, n)` -/
  | request (d : Byte) (n : Nat)
  /-- `BusRead()` that returned `b` -/
  | read (b : Byte)
  deriving DecidableEq, Repr

/-- What the chip makes of the next `BusWrite` (20_memory.md R54). A field of the model (log 13). -/
inductive BusPhase where
  /-- no write transaction is open -/
  | idle
  /-- `BusBegin` was sent: the next byte sets the register pointer -/
  | address
  /-- the pointer is set: the next byte is stored at it -/
  | data
  deriving DecidableEq, Repr

/-- The chip's bytes by address, in one canonical form: addresses strictly rising and below 0x40, no entry equal to
`Config.unlistedByte`, which an unlisted address holds. -/
abbrev Mem := List Host.Cell

/-- The machine. -/
structure State where
  /-- `PCB`, pendingControlByte (10_state.md R20) -/
  pcb : Byte
  /-- `ACB`, activeControlByte (10_state.md R21) -/
  acb : Byte
  /-- `H`, halted (10_state.md R22) -/
  halted : Bool
  /-- `F24`, use24HourFormat (10_state.md R23) -/
  use24 : Bool
  /-- the reference chip's bytes (10_state.md R27; 20_memory.md R54) -/
  mem : Mem
  /-- the chip's register pointer (10_state.md R34) -/
  ptr : ChipAddr
  /-- the bus transaction in progress; the model's own field (log 13) -/
  phase : BusPhase
  /-- the chip's own coming answers, first one first; when none is left the reference chip answers
  (20_memory.md R52, R54; log 8) -/
  oracle : List Byte
  /-- the bus trace, oldest event first (00_scope.md R9) -/
  trace : List BusEvent
  /-- bytes on the command port not yet consumed (00_scope.md R8) -/
  input : List Byte
  /-- the response stream, oldest byte first (00_scope.md R8) -/
  responses : List Byte
  /-- IllegalCommands raised so far: the run's record that it is not clean (60_exceptions.md R221; log 11) -/
  illegals : Nat
  /-- unspecified bytes drawn so far; the model's own field (log 9) -/
  draws : Nat
  /-- the OPEN parameters; no step writes them (00_scope.md R6, 10_state.md R36) -/
  params : Params
  deriving DecidableEq, Repr

/-- Why a step is no step. Neither stops a command. -/
inductive Fault where
  /-- Raised by `step` when no byte is on the command port: the run has ended (00_scope.md R11). Safe. -/
  | runEnded
  /-- Raised by `step` when the command's bytes have not all arrived: the codec waits, the run is stuck
  (30_encoding.md R72). Safe. -/
  | incompleteCommand
  deriving DecidableEq, Repr

/-- Why an instruction has no meaning. -/
inductive Refusal where
  /-- Raised by an arm of `exec` whose instruction is not modelled; no arm raises it. Safe. -/
  | notModelled (mnemonic : String)
  deriving DecidableEq, Repr

/-- The chip as a reset finds it: reset does not touch it (10_state.md R37). -/
structure ChipState where
  mem    : Mem
  ptr    : ChipAddr
  oracle : List Byte
  deriving DecidableEq, Repr

/-- The machine right after reset for every value of what the spec leaves OPEN: `RESET_PCB`, `RESET_ACB`,
`RESET_HALTED`, `RESET_USE24`, the parameters, and a chip that holds whatever it held. The ports are empty
(10_state.md R37; 70_reset_and_hazards.md R240). -/
def State.resetWith (pcb acb : Byte) (halted use24 : Bool) (chip : ChipState) (params : Params) : State :=
  { pcb := pcb
    acb := acb
    halted := halted
    use24 := use24
    mem := chip.mem
    ptr := chip.ptr
    phase := .idle
    oracle := chip.oracle
    trace := []
    input := []
    responses := []
    illegals := 0
    draws := 0
    params := params }

/-- The one reset state of the host's interface: `State.resetWith` at the values logs 3 to 8 name. -/
def State.reset : State :=
  State.resetWith Config.resetPcb Config.resetAcb Config.resetHalted Config.resetUse24 ⟨[], 0, []⟩ Params.default

end Sys2Proof.Machine
end

