-- ==== Sys2Proof/Machine/Ops.lean ====
section
/-! DEFINITION. The named operations over chip memory, registers and ports: the five bus primitives as the reference
chip answers them (spec 00_scope.md R9, 20_memory.md R54), the transactions made of them (R44, R45, R46), the response
(30_encoding.md R73), the draw of an unspecified byte, and the one exception (60_exceptions.md R221). -/

namespace Sys2Proof.Machine

/-! ### Chip memory -/

/-- The byte at an address; `Config.unlistedByte` where nothing is listed. -/
def Mem.read : Mem → Nat → Byte
  | [], _ => Config.unlistedByte
  | (k, v) :: m, a => if k = a then v else Mem.read m a

/-- The entry for a byte at an address: none when the byte is what an unlisted address holds. -/
def Mem.entry (a : Nat) (b : Byte) : Mem := if b = Config.unlistedByte then [] else [(a, b)]

/-- Store a byte at an address, keeping the canonical form. -/
def Mem.write : Mem → Nat → Byte → Mem
  | [], a, b => Mem.entry a b
  | (k, v) :: m, a, b =>
    if k < a then (k, v) :: Mem.write m a b
    else if k = a then Mem.entry a b ++ m
    else Mem.entry a b ++ (k, v) :: m

/-- Store bytes at rising addresses. -/
def Mem.writeList : Mem → Nat → List Byte → Mem
  | m, _, [] => m
  | m, a, b :: bs => Mem.writeList (Mem.write m a b) (a + 1) bs

/-- The canonical form holds. -/
def Mem.wf (m : Mem) : Bool :=
  decide (m.Pairwise (fun x y => x.1 < y.1)) &&
    m.all (fun c => decide (c.1 < Config.addrSpace) && decide (c.2 ≠ Config.unlistedByte))

/-! ### Field updates -/

/-- `PCB <- v` -/
def State.setPcb (s : State) (v : Byte) : State := { s with pcb := v }

/-- `ACB <- v` -/
def State.setAcb (s : State) (v : Byte) : State := { s with acb := v }

/-- `H <- v` -/
def State.setHalted (s : State) (v : Bool) : State := { s with halted := v }

/-- `F24 <- v` -/
def State.setUse24 (s : State) (v : Bool) : State := { s with use24 := v }

/-- The chip's bytes become `m`. -/
def State.setMem (s : State) (m : Mem) : State := { s with mem := m }

/-- The chip's register pointer becomes `p`. -/
def State.setPtr (s : State) (p : ChipAddr) : State := { s with ptr := p }

/-- The phase of the bus transaction becomes `p`. -/
def State.setPhase (s : State) (p : BusPhase) : State := { s with phase := p }

/-- The first pending answer of the chip is used up. -/
def State.popOracle (s : State) : State := { s with oracle := s.oracle.tail }

/-- One more event on the bus port (00_scope.md R9). -/
def State.emit (s : State) (e : BusEvent) : State := { s with trace := s.trace ++ [e] }

/-- The command port holds `rest`. -/
def State.setInput (s : State) (rest : List Byte) : State := { s with input := rest }

/-- `respond(st, payload)` (00_scope.md R14; 30_encoding.md R73). -/
def State.respond (s : State) (st : Byte) (payload : List Byte) : State :=
  { s with responses := s.responses ++ st :: payload }

/-- One more IllegalCommand in the run's record. -/
def State.countIllegal (s : State) : State := { s with illegals := s.illegals + 1 }

/-- `n` more unspecified bytes have been drawn. -/
def State.advanceDraws (s : State) (n : Nat) : State := { s with draws := s.draws + n }

/-! ### Responses -/

/-- Status 0x00: the command was executed (30_encoding.md R73). -/
def statusDone : Byte := 0x00

/-- Status 0xFF: IllegalCommand (30_encoding.md R73). -/
def statusIllegal : Byte := 0xFF

/-- The response of an executed command. -/
def State.done (s : State) (payload : List Byte) : State := s.respond statusDone payload

/-- TAKING THE ONE EXCEPTION, IllegalCommand: the status byte 0xFF, no state field written, no bus event; nothing is
saved and there is nothing to return from (60_exceptions.md R221, R227, R228). The run's record counts it. -/
def State.raiseIllegal (s : State) : State := (s.respond statusIllegal []).countIllegal

/-! ### Unspecified bytes -/

/-- Bytes with their unspecified ones (`none`) filled in by free values, from draw number `n` on. -/
def fillDraws : List (Option Byte) → Nat → List Byte
  | [], _ => []
  | some b :: bs, n => b :: fillDraws bs n
  | none :: bs, n => Config.unspecified8 n :: fillDraws bs (n + 1)

/-- How many of the bytes are unspecified. -/
def unspecifiedCount (bs : List (Option Byte)) : Nat := bs.countP (fun b => b.isNone)

/-- The bytes, with a free value for each the spec leaves unspecified (00_scope.md R14 `unspecified8`). -/
def State.draw (s : State) (bs : List (Option Byte)) : List Byte × State :=
  (fillDraws bs s.draws, s.advanceDraws (unspecifiedCount bs))

/-! ### The five bus primitives and the reference chip -/

/-- The register pointer one further: `PTR_WRAP` after 0x3F (20_memory.md R54). -/
def State.nextPtr (s : State) : ChipAddr := if s.ptr = 0x3F then s.params.ptrWrap else s.ptr + 1

/-- What the next `BusRead` returns: the chip's own answer when one is pending (20_memory.md R52), else the reference
chip's byte at the pointer (R54). -/
def State.chipByte (s : State) : Byte := s.oracle.headD (Mem.read s.mem s.ptr.toNat)

/-- `BusBegin(DEVICE_ADDR)` -/
def State.busBegin (s : State) : State := (s.emit (.begin Config.deviceAddr)).setPhase .address

/-- `BusWrite(b)`: the first byte of a transaction sets the pointer, each further one is stored at it and advances it
(20_memory.md R54). A byte outside a transaction, which no command sends, reaches nothing. -/
def State.busWrite (s : State) (b : Byte) : State :=
  let t := s.emit (.write b)
  match s.phase with
  | .address => (t.setPtr (b.setWidth 6)).setPhase .data
  | .data => (t.setMem (Mem.write s.mem s.ptr.toNat b)).setPtr s.nextPtr
  | .idle => t

/-- `BusEnd()` -/
def State.busEnd (s : State) : State := (s.emit .stop).setPhase .idle

/-- `BusRequest(DEVICE_ADDR, n)`: changes nothing on the chip (20_memory.md R54). -/
def State.busRequest (s : State) (n : Nat) : State := s.emit (.request Config.deviceAddr n)

/-- `BusRead()`: the byte at the pointer, which advances (20_memory.md R54). -/
def State.busRead (s : State) : Byte × State :=
  (s.chipByte, ((s.emit (.read s.chipByte)).setPtr s.nextPtr).popOracle)

/-! ### Transactions -/

/-- `PtrSet(a)` (20_memory.md R44). -/
def State.ptrSet (s : State) (a : Byte) : State := ((s.busBegin).busWrite a).busEnd

/-- `n` times `BusRead()`, the bytes in the order read. -/
def State.busReads : Nat → State → List Byte × State
  | 0, s => ([], s)
  | n + 1, s =>
    let r := s.busRead
    let rest := State.busReads n r.2
    (r.1 :: rest.1, rest.2)

/-- `MemRead(a, n)` (20_memory.md R45). -/
def State.memRead (s : State) (a : Byte) (n : Nat) : List Byte × State :=
  State.busReads n ((s.ptrSet a).busRequest n)

/-- `BusWrite` for each byte in order. -/
def State.busWrites : List Byte → State → State
  | [], s => s
  | b :: bs, s => State.busWrites bs (s.busWrite b)

/-- `MemWrite(a, n, v)` with `n` the length of `v` (20_memory.md R46). -/
def State.memWrite (s : State) (a : Byte) (v : List Byte) : State :=
  (State.busWrites v ((s.busBegin).busWrite a)).busEnd

/-- `RdReg(a)`: `MemRead(a, 1)[0]` (44_scratch_memory.md R180). -/
def State.rdReg (s : State) (a : Byte) : Byte × State :=
  let r := s.memRead a 1
  (r.1.headD 0, r.2)

end Sys2Proof.Machine
end

