-- ==== Sys2Proof/Machine/Bcd.lean ====
section
/-! DEFINITION. The BCD conversion commands (spec 45_bcd_conversion.md R202, R203, R206). -/

namespace Sys2Proof.Machine

/-- D2B (45_bcd_conversion.md R202). -/
def execD2b (v : Byte) (s : State) : Host.Outcome State Fault Refusal :=
  let p := s.draw [toBcd v]
  .next (p.2.done p.1)

/-- B2D (45_bcd_conversion.md R203). -/
def execB2d (b : Byte) (s : State) : Host.Outcome State Fault Refusal :=
  let p := s.draw [ofBcd b]
  .next (p.2.done p.1)

end Sys2Proof.Machine
end

