-- ==== Sys2Proof/Machine/Commit.lean ====
section
/-! DEFINITION. The time commit (spec 42_time_commit.md R140 to R148). -/

namespace Sys2Proof.Machine

/-- Build the frame, write it at 0x00 in one transaction, then `ACB <- PCB` (42_time_commit.md R146, R148). -/
def State.commitFrame (s : State) (t : TimeArgs) (pm : Bool) : State :=
  let f := s.draw (writeFrame t pm s.halted s.use24 s.pcb)
  (f.2.memWrite Config.clockBase f.1).setAcb s.pcb

/-- COMMIT (42_time_commit.md R146). -/
def execCommit (t : TimeArgs) (pm : Bool) (s : State) : Host.Outcome State Fault Refusal :=
  .next ((s.commitFrame t pm).done [])

/-- COMMIT24: `F24 <- 1`, then as COMMIT with isPM 0 (42_time_commit.md R147). -/
def execCommit24 (t : TimeArgs) (s : State) : Host.Outcome State Fault Refusal :=
  .next (((s.setUse24 true).commitFrame t false).done [])

end Sys2Proof.Machine
end

