-- ==== Sys2Proof/WellFormed.lean ====
section
/-! DEFINITION. Which terms of `Instr` are commands. Every typed operand is legal by its type; the one check is that
the length of MWRB's data fits its length operand, 0 to 255 (spec 30_encoding.md R78). -/

namespace Sys2Proof

/-- The most data bytes MWRB can carry: its length operand is one byte (30_encoding.md R78). -/
def Instr.maxData : Nat := 255

/-- A term of `Instr` that some command bytes spell. -/
def Instr.wf : Instr → Bool
  | .setHalt _ => true
  | .set24h _ => true
  | .sqwEn _ => true
  | .sqwFreq _ => true
  | .sqwPol _ => true
  | .qHalt => true
  | .q24h => true
  | .qSqwEn => true
  | .qSqwFreq => true
  | .qSqwPol => true
  | .sync => true
  | .commit _ _ => true
  | .commit24 _ => true
  | .rdTime => true
  | .rdReg _ => true
  | .mrd1 _ => true
  | .mrdb _ _ => true
  | .mwr1 _ _ => true
  | .mwrb _ data => decide (data.length ≤ Instr.maxData)
  | .d2b _ => true
  | .b2d _ => true

end Sys2Proof
end

