-- ==== Sys2Proof/Decode.lean ====
section
/-! DEFINITION. The command decoder, total on any bytes, and after it the encoder. A command is one opcode byte and
its operand bytes (spec 30_encoding.md R70, R71, R75, R78); what spells no command is IllegalCommand (R76) or waits for
more bytes (R72). -/

namespace Sys2Proof

/-- The opcodes by name (30_encoding.md R75). -/
inductive Opcode where
  | setHalt | set24h | sqwEn | sqwFreq | sqwPol
  | qHalt | q24h | qSqwEn | qSqwFreq | qSqwPol | sync
  | commit | commit24 | rdTime
  | rdReg | mrd1 | mrdb | mwr1 | mwrb
  | d2b | b2d
  deriving DecidableEq, Repr

/-- Why bytes are IllegalCommand (30_encoding.md R76). -/
inductive IllegalReason where
  /-- (a) an opcode byte outside the 21 -/
  | unknownOpcode (b : Byte)
  /-- (b) a legal opcode whose typed operand is outside its legal values -/
  | badOperand (op : Opcode)
  deriving DecidableEq, Repr

/-- What the decoder makes of the bytes on the command port; `rest` is what it leaves there. -/
inductive Decoded where
  /-- a command whose bytes have all arrived -/
  | command (i : Instr) (rest : List Byte)
  /-- IllegalCommand: the bytes R76 says are consumed -/
  | illegal (why : IllegalReason) (rest : List Byte)
  /-- a command whose bytes have not all arrived (R72) -/
  | incomplete
  /-- no byte at all (00_scope.md R11) -/
  | exhausted
  deriving DecidableEq, Repr

/-- The opcode map (30_encoding.md R75). -/
def Opcode.byte : Opcode → Byte
  | .setHalt => 0x10
  | .set24h => 0x11
  | .sqwEn => 0x12
  | .sqwFreq => 0x13
  | .sqwPol => 0x14
  | .qHalt => 0x18
  | .q24h => 0x19
  | .qSqwEn => 0x1A
  | .qSqwFreq => 0x1B
  | .qSqwPol => 0x1C
  | .sync => 0x1F
  | .commit => 0x20
  | .commit24 => 0x21
  | .rdTime => 0x30
  | .rdReg => 0x40
  | .mrd1 => 0x41
  | .mrdb => 0x42
  | .mwr1 => 0x43
  | .mwrb => 0x44
  | .d2b => 0x50
  | .b2d => 0x51

/-- The opcodes in the table's order. -/
def Opcode.all : List Opcode :=
  [.setHalt, .set24h, .sqwEn, .sqwFreq, .sqwPol, .qHalt, .q24h, .qSqwEn, .qSqwFreq, .qSqwPol, .sync,
    .commit, .commit24, .rdTime, .rdReg, .mrd1, .mrdb, .mwr1, .mwrb, .d2b, .b2d]

/-- The opcode an opcode byte names, if any: every other byte is illegal (30_encoding.md R76). -/
def Opcode.ofByte (b : Byte) : Option Opcode := Opcode.all.find? (fun o => o.byte == b)

/-- A boolean byte: 0x00 or 0x01 (30_encoding.md R74). -/
def boolOfByte (a : Byte) : Option Bool :=
  if a = 0 then some false else if a = 1 then some true else none

/-- A frequency byte: 0x00 to 0x03 in listing order (30_encoding.md R74). -/
def freqOfByte (a : Byte) : Option Freq :=
  if a = 0 then some .f1hz else if a = 1 then some .f4khz else if a = 2 then some .f8khz
  else if a = 3 then some .f32khz else none

/-- The number of a frequency, as an operand and as QSQWFREQ's answer (30_encoding.md R73, R74). -/
def freqByte : Freq → Byte
  | .f1hz => 0
  | .f4khz => 1
  | .f8khz => 2
  | .f32khz => 3

/-- A chip address byte: 0x00 to 0x3F (30_encoding.md R74). -/
def addrOfByte (a : Byte) : Option ChipAddr :=
  if a.toNat < Config.addrSpace then some (a.setWidth 6) else none

/-- The verdict on a typed operand: the command, or IllegalCommand with the whole command consumed (R76). -/
def checked (op : Opcode) (i : Option Instr) (rest : List Byte) : Decoded :=
  match i with
  | some i => .command i rest
  | none => .illegal (.badOperand op) rest

/-- Formats B, E, A: one typed operand byte. -/
def readTyped (op : Opcode) (mk : Byte → Option Instr) : List Byte → Decoded
  | a :: rest => checked op (mk a) rest
  | [] => .incomplete

/-- Format V: one value byte. -/
def readValue (mk : Byte → Instr) : List Byte → Decoded
  | a :: rest => .command (mk a) rest
  | [] => .incomplete

/-- Format P: two value bytes. -/
def readPair (mk : Byte → Byte → Instr) : List Byte → Decoded
  | a :: b :: rest => .command (mk a b) rest
  | _ => .incomplete

/-- Format T: seven value bytes and the isPM boolean byte. -/
def readCommit : List Byte → Decoded
  | s :: m :: h :: dw :: dm :: mo :: y :: pm :: rest =>
    checked .commit ((boolOfByte pm).map (Instr.commit ⟨s, m, h, dw, dm, mo, y⟩)) rest
  | _ => .incomplete

/-- Format U: seven value bytes. -/
def readCommit24 : List Byte → Decoded
  | s :: m :: h :: dw :: dm :: mo :: y :: rest => .command (.commit24 ⟨s, m, h, dw, dm, mo, y⟩) rest
  | _ => .incomplete

/-- Format W: offset, length `n`, then `n` data bytes (30_encoding.md R78). -/
def readBlock : List Byte → Decoded
  | o :: n :: rest =>
    if n.toNat ≤ rest.length then .command (.mwrb o (rest.take n.toNat)) (rest.drop n.toNat) else .incomplete
  | _ => .incomplete

/-- The operands of an opcode, by its format (30_encoding.md R71, R75). -/
def decodeOperands (op : Opcode) (args : List Byte) : Decoded :=
  match op with
  | .setHalt => readTyped op (fun a => (boolOfByte a).map .setHalt) args
  | .set24h => readTyped op (fun a => (boolOfByte a).map .set24h) args
  | .sqwEn => readTyped op (fun a => (boolOfByte a).map .sqwEn) args
  | .sqwFreq => readTyped op (fun a => (freqOfByte a).map .sqwFreq) args
  | .sqwPol => readTyped op (fun a => (boolOfByte a).map .sqwPol) args
  | .qHalt => .command .qHalt args
  | .q24h => .command .q24h args
  | .qSqwEn => .command .qSqwEn args
  | .qSqwFreq => .command .qSqwFreq args
  | .qSqwPol => .command .qSqwPol args
  | .sync => .command .sync args
  | .commit => readCommit args
  | .commit24 => readCommit24 args
  | .rdTime => .command .rdTime args
  | .rdReg => readTyped op (fun a => (addrOfByte a).map .rdReg) args
  | .mrd1 => readValue .mrd1 args
  | .mrdb => readPair .mrdb args
  | .mwr1 => readPair .mwr1 args
  | .mwrb => readBlock args
  | .d2b => readValue .d2b args
  | .b2d => readValue .b2d args

/-- The decoder: the opcode byte first, then its operands (30_encoding.md R70; check order 60_exceptions.md R225). -/
def decode : List Byte → Decoded
  | [] => .exhausted
  | b :: args =>
    match Opcode.ofByte b with
    | some op => decodeOperands op args
    | none => .illegal (.unknownOpcode b) args

/-- The opcode of a command. -/
def Instr.opcode : Instr → Opcode
  | .setHalt _ => .setHalt
  | .set24h _ => .set24h
  | .sqwEn _ => .sqwEn
  | .sqwFreq _ => .sqwFreq
  | .sqwPol _ => .sqwPol
  | .qHalt => .qHalt
  | .q24h => .q24h
  | .qSqwEn => .qSqwEn
  | .qSqwFreq => .qSqwFreq
  | .qSqwPol => .qSqwPol
  | .sync => .sync
  | .commit _ _ => .commit
  | .commit24 _ => .commit24
  | .rdTime => .rdTime
  | .rdReg _ => .rdReg
  | .mrd1 _ => .mrd1
  | .mrdb _ _ => .mrdb
  | .mwr1 _ _ => .mwr1
  | .mwrb _ _ => .mwrb
  | .d2b _ => .d2b
  | .b2d _ => .b2d

/-- The seven time operands as bytes, in command order. -/
def TimeArgs.bytes (t : TimeArgs) : List Byte :=
  [t.second, t.minute, t.hour, t.dayOfWeek, t.dayOfMonth, t.month, t.year]

/-- The operand bytes of a command (30_encoding.md R71). -/
def Instr.operandBytes : Instr → List Byte
  | .setHalt b => [Byte.ofBool b]
  | .set24h b => [Byte.ofBool b]
  | .sqwEn b => [Byte.ofBool b]
  | .sqwFreq f => [freqByte f]
  | .sqwPol p => [Byte.ofBool p]
  | .qHalt => []
  | .q24h => []
  | .qSqwEn => []
  | .qSqwFreq => []
  | .qSqwPol => []
  | .sync => []
  | .commit t pm => t.bytes ++ [Byte.ofBool pm]
  | .commit24 t => t.bytes
  | .rdTime => []
  | .rdReg a => [a.setWidth 8]
  | .mrd1 o => [o]
  | .mrdb o n => [o, n]
  | .mwr1 o d => [o, d]
  | .mwrb o data => o :: BitVec.ofNat 8 data.length :: data
  | .d2b v => [v]
  | .b2d b => [b]

/-- The bytes of a well-formed command, opcode byte first (30_encoding.md R70). -/
def encode (i : Instr) : List Byte := i.opcode.byte :: i.operandBytes

/-- The bytes of a command with this opcode, the opcode byte included; for MWRB those before its data
(30_encoding.md R71). -/
def Opcode.headLength : Opcode → Nat
  | .setHalt => 2
  | .set24h => 2
  | .sqwEn => 2
  | .sqwFreq => 2
  | .sqwPol => 2
  | .qHalt => 1
  | .q24h => 1
  | .qSqwEn => 1
  | .qSqwFreq => 1
  | .qSqwPol => 1
  | .sync => 1
  | .commit => 9
  | .commit24 => 8
  | .rdTime => 1
  | .rdReg => 2
  | .mrd1 => 2
  | .mrdb => 3
  | .mwr1 => 3
  | .mwrb => 3
  | .d2b => 2
  | .b2d => 2

/-- The length of the command these bytes begin, known after the opcode byte, for MWRB after the third byte (a
missing byte counts as zero); an unknown opcode is one byte long (30_encoding.md R76, R78). -/
def commandLength (bs : List Byte) : Nat :=
  match Opcode.ofByte (bs.getD 0 0) with
  | some .mwrb => Opcode.headLength .mwrb + (bs.getD 2 0).toNat
  | some op => op.headLength
  | none => 1

/-- The bytes of a table word of `nbits` bits, first byte most significant (30_encoding.md R70; log 2), made up with
zero bytes to the length of the command they begin. -/
def tableBytes (nbits w : Nat) : List Byte :=
  let count := (nbits + 7) / 8
  let given := (List.range count).map (fun k => BitVec.ofNat 8 (w >>> (8 * (count - 1 - k))))
  given ++ List.replicate (commandLength given - count) 0

/-- The instruction the decoder reads from a table word, none where it refuses. -/
def decodeTableWord (nbits w : Nat) : Option Instr :=
  match decode (tableBytes nbits w) with
  | .command i _ => some i
  | .illegal _ _ => none
  | .incomplete => none
  | .exhausted => none

end Sys2Proof
end

