-- ==== Sys2Proof/Machine/Queries.lean ====
section
/-! DEFINITION. The five queries and BEGIN (spec 41_config_queries_begin.md R120 to R127). QHALT and Q24H read the
chip; QSQWEN, QSQWFREQ and QSQWPOL report `ACB`. -/

namespace Sys2Proof.Machine

/-- QHALT (41_config_queries_begin.md R120). -/
def execQHalt (s : State) : Host.Outcome State Fault Refusal :=
  let r := s.rdReg Config.clockBase
  .next (r.2.done [Byte.ofBool (haltBit r.1)])

/-- Q24H (41_config_queries_begin.md R121). -/
def execQ24h (s : State) : Host.Outcome State Fault Refusal :=
  let r := s.rdReg Config.hoursAddr
  .next (r.2.done [Byte.ofBool (!mode12Bit r.1)])

/-- QSQWEN (41_config_queries_begin.md R122). -/
def execQSqwEn (s : State) : Host.Outcome State Fault Refusal :=
  .next (s.done [Byte.ofBool (sqwEnableBit s.acb)])

/-- QSQWFREQ (41_config_queries_begin.md R123). -/
def execQSqwFreq (s : State) : Host.Outcome State Fault Refusal :=
  .next (s.done [freqByte (freqOfPattern s.params.freqCode (sqwFreqBits s.acb))])

/-- QSQWPOL (41_config_queries_begin.md R124). -/
def execQSqwPol (s : State) : Host.Outcome State Fault Refusal :=
  .next (s.done [Byte.ofBool (sqwLevelHigh s.acb)])

/-- BEGIN: reads 0x07, 0x00, 0x02 in that order, then writes all four fields (41_config_queries_begin.md R125). -/
def execSync (s : State) : Host.Outcome State Fault Refusal :=
  let c := s.rdReg Config.controlAddr
  let sec := c.2.rdReg Config.clockBase
  let hrs := sec.2.rdReg Config.hoursAddr
  .next (((((hrs.2.setAcb c.1).setPcb c.1).setHalted (haltBit sec.1)).setUse24 (!mode12Bit hrs.1)).done [])

end Sys2Proof.Machine
end

