-- ==== Sys2Proof/Machine/ReadTime.lean ====
section
/-! DEFINITION. The time read (spec 43_time_read.md R160 to R168). -/

namespace Sys2Proof.Machine

/-- RDTIME: read the frame, answer its fields, `ACB <-` the eighth byte (43_time_read.md R166, R167). -/
def execRdTime (s : State) : Host.Outcome State Fault Refusal :=
  let r := s.memRead Config.clockBase Config.frameLen
  let p := r.2.draw (readPayload r.1)
  .next ((p.2.setAcb (r.1.getD 7 0)).done p.1)

end Sys2Proof.Machine
end

