-- ==== Sys2Proof/Machine/Scratch.lean ====
section
/-! DEFINITION. The single-register read and the scratch-memory commands (spec 44_scratch_memory.md R180 to R193). A
request out of range is dropped: no bus event, status 0x00. -/

namespace Sys2Proof.Machine

/-- RDREG (44_scratch_memory.md R181). -/
def execRdReg (a : ChipAddr) (s : State) : Host.Outcome State Fault Refusal :=
  let r := s.rdReg (a.setWidth 8)
  .next (r.2.done [r.1])

/-- MRD1; a dropped read-one answers an unspecified byte (44_scratch_memory.md R187). -/
def execMrd1 (o : Byte) (s : State) : Host.Outcome State Fault Refusal :=
  if inRange o.toNat 1 then
    let r := s.rdReg (userAddr o.toNat)
    .next (r.2.done [r.1])
  else
    let p := s.draw [none]
    .next (p.2.done p.1)

/-- MWR1 (44_scratch_memory.md R188). -/
def execMwr1 (o d : Byte) (s : State) : Host.Outcome State Fault Refusal :=
  if inRange o.toNat 1 then .next ((s.memWrite (userAddr o.toNat) [d]).done [])
  else .next (s.done [])

/-- The segments of a block read in order, their bytes appended (44_scratch_memory.md R190). -/
def readSegments : List (Nat × Nat) → State → List Byte × State
  | [], s => ([], s)
  | seg :: segs, s =>
    let r := s.memRead (userAddr seg.1) seg.2
    let rest := readSegments segs r.2
    (r.1 ++ rest.1, rest.2)

/-- MRDB; a dropped read-block answers nothing (44_scratch_memory.md R190). -/
def execMrdb (o n : Byte) (s : State) : Host.Outcome State Fault Refusal :=
  if inRange o.toNat n.toNat then
    let r := readSegments (segments o.toNat n.toNat) s
    .next (r.2.done r.1)
  else .next (s.done [])

/-- The segments of a block write in order, each taking the next data bytes (44_scratch_memory.md R191). -/
def writeSegments : List (Nat × Nat) → List Byte → State → State
  | [], _, s => s
  | seg :: segs, data, s =>
    writeSegments segs (data.drop seg.2) (s.memWrite (userAddr seg.1) (data.take seg.2))

/-- MWRB, its length operand being the number of data bytes (44_scratch_memory.md R191). -/
def execMwrb (o : Byte) (data : List Byte) (s : State) : Host.Outcome State Fault Refusal :=
  if inRange o.toNat data.length then
    .next ((writeSegments (segments o.toNat data.length) data s).done [])
  else .next (s.done [])

end Sys2Proof.Machine
end

