-- ==== Sys2Proof/Machine/Setters.lean ====
section
/-! DEFINITION. The five configuration setters (spec 40_config_setters.md R100 to R106): one state field, the status
byte, no bus event. -/

namespace Sys2Proof.Machine

/-- SETHALT (40_config_setters.md R100). -/
def execSetHalt (b : Bool) (s : State) : Host.Outcome State Fault Refusal :=
  .next ((s.setHalted b).done [])

/-- SET24H (40_config_setters.md R101). -/
def execSet24h (b : Bool) (s : State) : Host.Outcome State Fault Refusal :=
  .next ((s.setUse24 b).done [])

/-- SQWEN (40_config_setters.md R102). -/
def execSqwEn (b : Bool) (s : State) : Host.Outcome State Fault Refusal :=
  .next ((s.setPcb (withSqwEnable s.pcb b)).done [])

/-- SQWFREQ (40_config_setters.md R103). -/
def execSqwFreq (f : Freq) (s : State) : Host.Outcome State Fault Refusal :=
  .next ((s.setPcb (withSqwFreq s.pcb (freqPattern s.params.freqCode f))).done [])

/-- SQWPOL (40_config_setters.md R104). -/
def execSqwPol (p : Bool) (s : State) : Host.Outcome State Fault Refusal :=
  .next ((s.setPcb (withSqwPolarity s.pcb p)).done [])

end Sys2Proof.Machine
end

