-- ==== Sys2Proof/Machine/Dispatch.lean ====
section
/-! DEFINITION. One arm per command, each one call of its meaning. -/

namespace Sys2Proof.Machine

def exec (i : Instr) (s : State) : Host.Outcome State Fault Refusal :=
  match i with
  | .setHalt b => Sys2Proof.Machine.execSetHalt b s
  | .set24h b => Sys2Proof.Machine.execSet24h b s
  | .sqwEn b => Sys2Proof.Machine.execSqwEn b s
  | .sqwFreq f => Sys2Proof.Machine.execSqwFreq f s
  | .sqwPol p => Sys2Proof.Machine.execSqwPol p s
  | .qHalt => Sys2Proof.Machine.execQHalt s
  | .q24h => Sys2Proof.Machine.execQ24h s
  | .qSqwEn => Sys2Proof.Machine.execQSqwEn s
  | .qSqwFreq => Sys2Proof.Machine.execQSqwFreq s
  | .qSqwPol => Sys2Proof.Machine.execQSqwPol s
  | .sync => Sys2Proof.Machine.execSync s
  | .commit t pm => Sys2Proof.Machine.execCommit t pm s
  | .commit24 t => Sys2Proof.Machine.execCommit24 t s
  | .rdTime => Sys2Proof.Machine.execRdTime s
  | .rdReg a => Sys2Proof.Machine.execRdReg a s
  | .mrd1 o => Sys2Proof.Machine.execMrd1 o s
  | .mrdb o n => Sys2Proof.Machine.execMrdb o n s
  | .mwr1 o d => Sys2Proof.Machine.execMwr1 o d s
  | .mwrb o data => Sys2Proof.Machine.execMwrb o data s
  | .d2b v => Sys2Proof.Machine.execD2b v s
  | .b2d b => Sys2Proof.Machine.execB2d b s

end Sys2Proof.Machine
end

