-- ==== Sys2Proof/Machine/Step.lean ====
section
/-! DEFINITION. One step: the next command on the command port, executed whole (spec 00_scope.md R10, 30_encoding.md
R70), or IllegalCommand (60_exceptions.md R221). -/

namespace Sys2Proof.Machine

/-- Take the next command off the command port and execute it. -/
def step (s : State) : Host.Outcome State Fault Refusal :=
  match decode s.input with
  | .command i rest => exec i (s.setInput rest)
  | .illegal _ rest => .next (s.setInput rest).raiseIllegal
  | .incomplete => .fault .incompleteCommand
  | .exhausted => .fault .runEnded

/-- `s` with the bytes of a table word on its command port, so that the next step runs that instruction (log 1). -/
def State.withFetchWord (s : State) (nbits w : Nat) : State := s.setInput (tableBytes nbits w)

end Sys2Proof.Machine
end

