-- ==== Sys2Proof/Safety.lean ====
section
/-! DEFINITION. The words claims are made in: what the chip answers and where its pointer goes in one transaction,
the shapes of transactions (spec 20_memory.md R44 to R46), what a command may write (10_state.md R26), the invariant of
the machine, and a clean run (60_exceptions.md R221). -/

namespace Sys2Proof.Machine

/-! ### One transaction at chip address `a` -/

/-- What the `i`-th `BusRead` (from 0) of a read at address `a` returns: the chip's own answer when one is pending
(20_memory.md R52), else the reference chip's byte at `a + i` (R45, R54). -/
def State.answer (s : State) (a : Byte) (i : Nat) : Byte :=
  s.oracle.getD i (Mem.read s.mem (a.toNat + i))

/-- The `n` bytes a read at address `a` returns, in order. -/
def State.answers (s : State) (a : Byte) (n : Nat) : List Byte := (List.range n).map (s.answer a)

/-- The register pointer after `n` bytes were moved from address `a` on (20_memory.md R54). -/
def State.ptrAfter (s : State) (a : Byte) (n : Nat) : ChipAddr :=
  if a.toNat + n < Config.addrSpace then BitVec.ofNat 6 (a.toNat + n) else s.params.ptrWrap

/-- The events of `PtrSet(a)` (20_memory.md R44). -/
def ptrSetEvents (a : Byte) : List BusEvent := [.begin Config.deviceAddr, .write a, .stop]

/-- The events of `MemRead(a, n)` that returned `bs` (20_memory.md R45). -/
def readEvents (a : Byte) (bs : List Byte) : List BusEvent :=
  ptrSetEvents a ++ .request Config.deviceAddr bs.length :: bs.map .read

/-- The events of `MemWrite(a, n, v)` (20_memory.md R46). -/
def writeEvents (a : Byte) (v : List Byte) : List BusEvent :=
  .begin Config.deviceAddr :: .write a :: (v.map .write ++ [.stop])

/-- `s` after a read of `n` bytes at `a`: four fields of the chip and the bus, nothing of the codec. -/
def State.afterRead (s : State) (a : Byte) (n : Nat) : State :=
  { s with
    ptr := s.ptrAfter a n
    phase := .idle
    oracle := s.oracle.drop n
    trace := s.trace ++ readEvents a (s.answers a n) }

/-- `s` after a write of `v` at `a`: four fields of the chip and the bus, nothing of the codec. -/
def State.afterWrite (s : State) (a : Byte) (v : List Byte) : State :=
  { s with
    mem := Mem.writeList s.mem a.toNat v
    ptr := s.ptrAfter a v.length
    phase := .idle
    trace := s.trace ++ writeEvents a v }

/-- A transaction the codec may issue: the only two shapes with data (20_memory.md R43, R45, R46). -/
inductive Transaction where
  | read (a : Byte) (bs : List Byte)
  | write (a : Byte) (bs : List Byte)
  deriving DecidableEq, Repr

/-- Its bus events. -/
def Transaction.events : Transaction → List BusEvent
  | .read a bs => readEvents a bs
  | .write a bs => writeEvents a bs

/-- 1 to 32 data bytes, none beyond 0x3F (00_scope.md R9; 20_memory.md R43, R49). -/
def Transaction.legal : Transaction → Bool
  | .read a bs => decide (1 ≤ bs.length ∧ bs.length ≤ Config.maxBlock ∧ a.toNat + bs.length ≤ Config.addrSpace)
  | .write a bs => decide (1 ≤ bs.length ∧ bs.length ≤ Config.maxBlock ∧ a.toNat + bs.length ≤ Config.addrSpace)

/-- An event the bus port may carry: the device is always 0x68, a count is 1 to 32 (00_scope.md R9). -/
def BusEvent.legal : BusEvent → Bool
  | .begin d => decide (d = Config.deviceAddr)
  | .write _ => true
  | .stop => true
  | .request d n => decide (d = Config.deviceAddr ∧ 1 ≤ n ∧ n ≤ Config.maxBlock)
  | .read _ => true

/-! ### What a command may write -/

/-- The codec's own four fields. -/
inductive Field where
  | pcb | acb | halted | use24
  deriving DecidableEq, Repr

/-- The rows of the write matrix (10_state.md R26). -/
def mayWrite : Instr → List Field
  | .setHalt _ => [.halted]
  | .set24h _ => [.use24]
  | .sqwEn _ => [.pcb]
  | .sqwFreq _ => [.pcb]
  | .sqwPol _ => [.pcb]
  | .qHalt => []
  | .q24h => []
  | .qSqwEn => []
  | .qSqwFreq => []
  | .qSqwPol => []
  | .sync => [.pcb, .acb, .halted, .use24]
  | .commit _ _ => [.acb]
  | .commit24 _ => [.acb, .use24]
  | .rdTime => [.acb]
  | .rdReg _ => []
  | .mrd1 _ => []
  | .mrdb _ _ => []
  | .mwr1 _ _ => []
  | .mwrb _ _ => []
  | .d2b _ => []
  | .b2d _ => []

/-- The chip addresses a command stores to: the whole frame, or the scratch bytes of a request in range, each
computed as the meaning computes it (42_time_commit.md R146; 44_scratch_memory.md R186, R188, R191). -/
def storesTo (a : Nat) : Instr → Bool
  | .setHalt _ => false
  | .set24h _ => false
  | .sqwEn _ => false
  | .sqwFreq _ => false
  | .sqwPol _ => false
  | .qHalt => false
  | .q24h => false
  | .qSqwEn => false
  | .qSqwFreq => false
  | .qSqwPol => false
  | .sync => false
  | .commit _ _ => decide (Config.clockBase.toNat ≤ a ∧ a < Config.clockBase.toNat + Config.frameLen)
  | .commit24 _ => decide (Config.clockBase.toNat ≤ a ∧ a < Config.clockBase.toNat + Config.frameLen)
  | .rdTime => false
  | .rdReg _ => false
  | .mrd1 _ => false
  | .mrdb _ _ => false
  | .mwr1 o _ => inRange o.toNat 1 && decide (a = (userAddr o.toNat).toNat)
  | .mwrb o data =>
    inRange o.toNat data.length &&
      decide ((userAddr o.toNat).toNat ≤ a ∧ a < (userAddr o.toNat).toNat + data.length)
  | .d2b _ => false
  | .b2d _ => false

/-- The payload bytes of a command's response (30_encoding.md R73). -/
def payloadLength : Instr → Nat
  | .setHalt _ => 0
  | .set24h _ => 0
  | .sqwEn _ => 0
  | .sqwFreq _ => 0
  | .sqwPol _ => 0
  | .qHalt => 1
  | .q24h => 1
  | .qSqwEn => 1
  | .qSqwFreq => 1
  | .qSqwPol => 1
  | .sync => 0
  | .commit _ _ => 0
  | .commit24 _ => 0
  | .rdTime => 8
  | .rdReg _ => 1
  | .mrd1 _ => 1
  | .mrdb o n => if inRange o.toNat n.toNat then n.toNat else 0
  | .mwr1 _ _ => 0
  | .mwrb _ _ => 0
  | .d2b _ => 1
  | .b2d _ => 1

/-! ### The spec's formulas, as claims write them -/

/-- The formula of the encoder (45_bcd_conversion.md R200), for values in its domain. -/
def bcdByte (v : Byte) : Byte := BitVec.ofNat 8 (v.toNat / 10 * 16 + v.toNat % 10)

/-- The formula of the decoder (45_bcd_conversion.md R201), for bytes in its domain. -/
def bcdValue (b : Byte) : Byte := BitVec.ofNat 8 (b.toNat / 16 * 10 + b.toNat % 16)

/-- A valid BCD byte: both nibbles at most 9 (00_scope.md, glossary). -/
abbrev IsBcd (b : Byte) : Prop := b.toNat / 16 ≤ 9 ∧ b.toNat % 16 ≤ 9

/-- The hours byte of an hour in range (42_time_commit.md R143). -/
def hoursFormula (use24 : Bool) (hour : Byte) (pm : Bool) : Byte :=
  if use24 then bcdByte hour
  else if 12 < hour.toNat then 0x40 ||| 0x20 ||| bcdByte (hour - 12)
  else 0x40 ||| (if pm then 0x20 else 0x00) ||| bcdByte hour

/-- The eight frame bytes of operands in range (42_time_commit.md R140 to R144). -/
def frameFormula (t : TimeArgs) (pm halted use24 : Bool) (pcb : Byte) : List Byte :=
  [bcdByte t.second ||| (if halted then 0x80 else 0x00),
   bcdByte t.minute,
   hoursFormula use24 t.hour pm,
   bcdByte t.dayOfWeek,
   bcdByte t.dayOfMonth,
   bcdByte t.month,
   bcdByte t.year,
   pcb]

/-- Which frame bytes the spec gives: those built from an operand in its range (42_time_commit.md R145). -/
def frameGiven (t : TimeArgs) (use24 : Bool) : List Bool :=
  [decide (t.second.toNat ≤ 59),
   decide (t.minute.toNat ≤ 59),
   decide ((use24 = true ∨ 1 ≤ t.hour.toNat) ∧ t.hour.toNat ≤ 23),
   decide (1 ≤ t.dayOfWeek.toNat ∧ t.dayOfWeek.toNat ≤ 7),
   decide (1 ≤ t.dayOfMonth.toNat ∧ t.dayOfMonth.toNat ≤ 31),
   decide (1 ≤ t.month.toNat ∧ t.month.toNat ≤ 12),
   decide (t.year.toNat ≤ 99),
   true]

/-- Every operand is in its range (42_time_commit.md R145). -/
abbrev TimeInRange (t : TimeArgs) (use24 : Bool) : Prop := ∀ g ∈ frameGiven t use24, g = true

/-- The bytes RDTIME decodes, masked as the spec says (43_time_read.md R161, R162, R163), from the bytes read. -/
def maskedFrame (r : Nat → Byte) : List Byte :=
  [r 0 &&& 0x7F,
   r 1,
   (if (r 2).bit 6 then r 2 &&& 0x1F else r 2 &&& 0x3F),
   r 3, r 4, r 5, r 6]

/-- Which of the seven fields the spec gives: those whose masked byte is BCD, and of a 12-hour hour only 1 to 12
(43_time_read.md R165; 93_implementation_defined.md U9; log 20). -/
def readGiven (r : Nat → Byte) : List Bool :=
  [decide (IsBcd (r 0 &&& 0x7F)),
   decide (IsBcd (r 1)),
   (if (r 2).bit 6 then
      decide (IsBcd (r 2 &&& 0x1F) ∧ 1 ≤ (bcdValue (r 2 &&& 0x1F)).toNat ∧ (bcdValue (r 2 &&& 0x1F)).toNat ≤ 12)
    else decide (IsBcd (r 2 &&& 0x3F))),
   decide (IsBcd (r 3)),
   decide (IsBcd (r 4)),
   decide (IsBcd (r 5)),
   decide (IsBcd (r 6))]

/-- The five setters (40_config_setters.md). -/
abbrev IsSetter : Instr → Prop
  | .setHalt _ => True
  | .set24h _ => True
  | .sqwEn _ => True
  | .sqwFreq _ => True
  | .sqwPol _ => True
  | .qHalt => False
  | .q24h => False
  | .qSqwEn => False
  | .qSqwFreq => False
  | .qSqwPol => False
  | .sync => False
  | .commit _ _ => False
  | .commit24 _ => False
  | .rdTime => False
  | .rdReg _ => False
  | .mrd1 _ => False
  | .mrdb _ _ => False
  | .mwr1 _ _ => False
  | .mwrb _ _ => False
  | .d2b _ => False
  | .b2d _ => False

/-- The commands whose result depends on none of the codec's four fields (70_reset_and_hazards.md R241). -/
abbrev NeedsNoField : Instr → Prop
  | .setHalt _ => True
  | .set24h _ => True
  | .sqwEn _ => False
  | .sqwFreq _ => False
  | .sqwPol _ => False
  | .qHalt => True
  | .q24h => True
  | .qSqwEn => False
  | .qSqwFreq => False
  | .qSqwPol => False
  | .sync => True
  | .commit _ _ => False
  | .commit24 _ => False
  | .rdTime => True
  | .rdReg _ => True
  | .mrd1 _ => True
  | .mrdb _ _ => True
  | .mwr1 _ _ => True
  | .mwrb _ _ => True
  | .d2b _ => True
  | .b2d _ => True

/-! ### The invariant -/

/-- What every step keeps: chip memory in canonical form, no transaction left open between commands (20_memory.md
R47), an injective `FREQ_CODE` (40_config_setters.md R103), only legal events on the bus (00_scope.md R9). -/
structure State.Inv (s : State) : Prop where
  memCanonical : Mem.wf s.mem = true
  busIdle : s.phase = .idle
  freqInjective : s.params.freqCode.Injective
  eventsLegal : ∀ e ∈ s.trace, e.legal = true

/-- A clean run so far: it has raised no IllegalCommand (60_exceptions.md R221). -/
def State.clean (s : State) : Bool := decide (s.illegals = 0)

end Sys2Proof.Machine
end

