-- ==== Sys2Proof/Certificates/Slice0/Obligations.lean ====
section
/-! DEFINITION. The statements for the provers, from the spec's numbered rules. The words they use are those of
Safety.lean. A statement that a command answers `.next` holds in every state: every command completes. -/

open Sys2Proof Sys2Proof.Machine

/-! ### Encoding and the step -/

/-- Words written out from spec 30_encoding.md (R71, R75) decode to the commands they spell, one of each family. -/
def Obligations.WrittenWordsDecode : Prop :=
  decode [0x10, 0x01] = .command (.setHalt true) [] ∧
  decode [0x13, 0x03] = .command (.sqwFreq .f32khz) [] ∧
  decode [0x1F] = .command .sync [] ∧
  decode [0x20, 0x1E, 0x2D, 0x12, 0x03, 0x0F, 0x06, 0x18, 0x00] =
    .command (.commit ⟨30, 45, 18, 3, 15, 6, 24⟩ false) [] ∧
  decode [0x30] = .command .rdTime [] ∧
  decode [0x40, 0x3F] = .command (.rdReg 0x3F) [] ∧
  decode [0x44, 0x36, 0x02, 0xAA, 0xBB] = .command (.mwrb 54 [0xAA, 0xBB]) [] ∧
  decode [0x50, 0x3B] = .command (.d2b 59) []

/-- Every well-formed command is decoded from its bytes, whatever follows them: no operand bit is lost. -/
def Obligations.DecodeEncodeRoundTrip : Prop :=
  ∀ (i : Instr) (rest : List Byte), i.wf = true → decode (encode i ++ rest) = .command i rest

/-- The other direction: bytes that decode to a command are its encoding and nothing else (30_encoding.md R77). -/
def Obligations.DecodedBytesAreTheEncoding : Prop :=
  ∀ (bs rest : List Byte) (i : Instr), decode bs = .command i rest → i.wf = true ∧ bs = encode i ++ rest

/-- Bytes on the command port that spell a well-formed command: the step takes them off the port and executes the
command (30_encoding.md R70). Nothing else is added around `exec`. -/
def Obligations.StepRunsTheDecodedCommand : Prop :=
  ∀ (s : State) (i : Instr) (rest : List Byte), i.wf = true → s.input = encode i ++ rest →
    step s = exec i { s with input := rest }

/-- What R76 calls illegal: (a) an opcode byte outside the 21, one byte consumed; (b) a typed operand outside its legal
values, the whole command consumed. The response is 0xFF; no field of the codec, no chip byte, no bus event. -/
def Obligations.IllegalEncodingsAreConsumed : Prop :=
  ∀ (s : State) (op : Byte) (args : List Byte), s.input = op :: args →
    (op ∉ ([0x10, 0x11, 0x12, 0x13, 0x14, 0x18, 0x19, 0x1A, 0x1B, 0x1C, 0x1F, 0x20, 0x21, 0x30, 0x40, 0x41, 0x42,
        0x43, 0x44, 0x50, 0x51] : List Byte) →
      step s = .next { s with input := args, responses := s.responses ++ [0xFF], illegals := s.illegals + 1 }) ∧
    (∀ (a : Byte) (rest : List Byte), args = a :: rest →
      ((op = 0x10 ∨ op = 0x11 ∨ op = 0x12 ∨ op = 0x14) ∧ 1 < a.toNat) ∨ (op = 0x13 ∧ 3 < a.toNat) ∨
        (op = 0x40 ∧ 0x3F < a.toNat) →
      step s = .next { s with input := rest, responses := s.responses ++ [0xFF], illegals := s.illegals + 1 }) ∧
    (∀ (sec min hr dow dom mon yr pm : Byte) (rest : List Byte),
      args = sec :: min :: hr :: dow :: dom :: mon :: yr :: pm :: rest → op = 0x20 → 1 < pm.toNat →
      step s = .next { s with input := rest, responses := s.responses ++ [0xFF], illegals := s.illegals + 1 })

/-- IllegalCommand as R221 has it, for every illegal encoding the decoder finds: one byte consumed for an unknown
opcode, the whole fixed length for a bad operand; the single response byte 0xFF; nothing written, no bus event; the
run's record counts it; and the next command on the port executes normally. -/
def Obligations.IllegalCommandHasNoOtherEffect : Prop :=
  ∀ (s : State) (why : IllegalReason) (rest : List Byte), decode s.input = .illegal why rest →
    ∃ t, step s = .next t ∧
      t = { s with input := rest, responses := s.responses ++ [0xFF], illegals := s.illegals + 1 } ∧
      (∀ b, why = .unknownOpcode b → s.input = b :: rest) ∧
      (∀ op, why = .badOperand op → ∃ bs, s.input = bs ++ rest ∧ bs.length = op.headLength) ∧
      ∀ (i : Instr) (rest' : List Byte), i.wf = true → rest = encode i ++ rest' →
        step t = exec i { t with input := rest' }

/-- A command whose bytes have not all arrived has no step: every proper part of a command's bytes, but for none at
all, leaves the machine stuck. That stuck is the named outcome `incompleteCommand` is the model's (log 12). -/
def Obligations.IncompleteCommandIsStuck : Prop :=
  ∀ (s : State) (i : Instr) (missing : List Byte), i.wf = true → s.input ≠ [] → missing ≠ [] →
    encode i = s.input ++ missing → step s = .fault .incompleteCommand

/-- An empty command port ends the run (00_scope.md R11); that the end is the named outcome `runEnded` is the model's
(log 12). -/
def Obligations.EmptyPortEndsTheRun : Prop :=
  ∀ s : State, s.input = [] → step s = .fault .runEnded

/-! ### Reset and the invariant -/

/-- After reset, for every value of what R37 leaves OPEN: the four fields hold those values, the ports are empty, the
chip is as it was, and the codec has no step until a byte arrives. -/
def Obligations.ResetLeavesOpenValues : Prop :=
  ∀ (pcb acb : Byte) (halted use24 : Bool) (chip : ChipState) (params : Params),
    let s := State.resetWith pcb acb halted use24 chip params
    s.pcb = pcb ∧ s.acb = acb ∧ s.halted = halted ∧ s.use24 = use24 ∧
    s.trace = [] ∧ s.responses = [] ∧
    s.mem = chip.mem ∧ s.ptr = chip.ptr ∧
    ∀ t, step s ≠ .next t

/-- The model's own choice of one reset state (logs 3 to 8, DESIGN CHOICE): zeros, the default `FREQ_CODE`, the
reference chip with nothing written. -/
def Obligations.ResetOfTheModelIsZero : Prop :=
  State.reset = State.resetWith 0 0 false false ⟨[], 0, []⟩ ⟨⟨0b00, 0b01, 0b10, 0b11⟩, 0⟩

/-- Every reset state with canonical chip memory and an injective map, `State.reset` among them, meets the invariant.
The values of `State.reset` are the model's choice (logs 3 to 8). -/
def Obligations.ResetMeetsTheInvariant : Prop :=
  State.reset.Inv ∧
  ∀ (pcb acb : Byte) (halted use24 : Bool) (chip : ChipState) (params : Params),
    Mem.wf chip.mem = true → params.freqCode.Injective → (State.resetWith pcb acb halted use24 chip params).Inv

/-- Every step keeps the invariant: chip memory canonical, no transaction left open, `FREQ_CODE` injective, the bus
addressed only at 0x68 with counts 1 to 32. -/
def Obligations.StepKeepsTheInvariant : Prop :=
  ∀ s t : State, s.Inv → step s = .next t → t.Inv

/-! ### Configuration setters -/

/-- R100: SETHALT writes `H` and nothing else; an operand above 0x01 is IllegalCommand with nothing written. -/
def Obligations.SetHaltWritesHaltedOnly : Prop :=
  (∀ (s : State) (b : Bool),
    exec (.setHalt b) s = .next { s with halted := b, responses := s.responses ++ [0x00] }) ∧
  ∀ (s : State) (b : Byte) (rest : List Byte), s.input = 0x10 :: b :: rest →
    step s = if b.toNat ≤ 1
      then .next { s with input := rest, halted := decide (b = 1), responses := s.responses ++ [0x00] }
      else .next { s with input := rest, responses := s.responses ++ [0xFF], illegals := s.illegals + 1 }

/-- R101: SET24H writes `F24` and nothing else; an operand above 0x01 is IllegalCommand with nothing written. -/
def Obligations.Set24hWritesUse24Only : Prop :=
  (∀ (s : State) (b : Bool),
    exec (.set24h b) s = .next { s with use24 := b, responses := s.responses ++ [0x00] }) ∧
  ∀ (s : State) (b : Byte) (rest : List Byte), s.input = 0x11 :: b :: rest →
    step s = if b.toNat ≤ 1
      then .next { s with input := rest, use24 := decide (b = 1), responses := s.responses ++ [0x00] }
      else .next { s with input := rest, responses := s.responses ++ [0xFF], illegals := s.illegals + 1 }

/-- R102, bit by bit: SQWEN makes `PCB[4]` its operand and keeps every other bit and every other field. -/
def Obligations.SqwEnWritesBitFourOnly : Prop :=
  (∀ (s : State) (b : Bool), ∃ p : Byte,
    exec (.sqwEn b) s = .next { s with pcb := p, responses := s.responses ++ [0x00] } ∧
    p.bit 4 = b ∧ ∀ k, k ≠ 4 → p.bit k = s.pcb.bit k) ∧
  ∀ (s : State) (b : Byte) (rest : List Byte), s.input = 0x12 :: b :: rest →
    step s = if b.toNat ≤ 1 then exec (.sqwEn (decide (b = 1))) { s with input := rest }
      else .next { s with input := rest, responses := s.responses ++ [0xFF], illegals := s.illegals + 1 }

/-- R103, bit by bit, for every map `FREQ_CODE`: SQWFREQ makes `PCB[1:0]` the pattern of its frequency and keeps every
other bit and every other field. -/
def Obligations.SqwFreqWritesLowBitsOnly : Prop :=
  (∀ (s : State) (f : Freq), ∃ p : Byte,
    exec (.sqwFreq f) s = .next { s with pcb := p, responses := s.responses ++ [0x00] } ∧
    p.setWidth 2 = (match f with
      | .f1hz => s.params.freqCode.f1hz
      | .f4khz => s.params.freqCode.f4khz
      | .f8khz => s.params.freqCode.f8khz
      | .f32khz => s.params.freqCode.f32khz) ∧
    ∀ k, 2 ≤ k → p.bit k = s.pcb.bit k) ∧
  ∀ (s : State) (a : Byte) (rest : List Byte), s.input = 0x13 :: a :: rest →
    step s = if a = 0 then exec (.sqwFreq .f1hz) { s with input := rest }
      else if a = 1 then exec (.sqwFreq .f4khz) { s with input := rest }
      else if a = 2 then exec (.sqwFreq .f8khz) { s with input := rest }
      else if a = 3 then exec (.sqwFreq .f32khz) { s with input := rest }
      else .next { s with input := rest, responses := s.responses ++ [0xFF], illegals := s.illegals + 1 }

/-- R104, bit by bit: SQWPOL makes `PCB[7]` the complement of its operand and keeps every other bit and every other
field. -/
def Obligations.SqwPolWritesInvertedBitSeven : Prop :=
  (∀ (s : State) (p : Bool), ∃ c : Byte,
    exec (.sqwPol p) s = .next { s with pcb := c, responses := s.responses ++ [0x00] } ∧
    c.bit 7 = !p ∧ ∀ k, k ≠ 7 → c.bit k = s.pcb.bit k) ∧
  ∀ (s : State) (a : Byte) (rest : List Byte), s.input = 0x14 :: a :: rest →
    step s = if a.toNat ≤ 1 then exec (.sqwPol (decide (a = 1))) { s with input := rest }
      else .next { s with input := rest, responses := s.responses ++ [0xFF], illegals := s.illegals + 1 }

/-- R105: no setter issues a bus event or touches `ACB` or the chip; its response is the status byte 0x00 alone. -/
def Obligations.SettersAreDeferred : Prop :=
  ∀ (i : Instr) (s : State), IsSetter i → ∃ t, exec i s = .next t ∧
    t = { s with pcb := t.pcb, halted := t.halted, use24 := t.use24, responses := s.responses ++ [0x00] }

/-- R106: of two setters of one command in a row the second wins, setters of different commands commute, and none
changes `PCB[6:5]` or `PCB[3:2]`. -/
def Obligations.SettersLastWriteWins : Prop :=
  ∀ (i j : Instr) (s t u : State), IsSetter i → IsSetter j → exec i s = .next t → exec j t = .next u →
    (u.pcb.bit 6 = s.pcb.bit 6 ∧ u.pcb.bit 5 = s.pcb.bit 5 ∧ u.pcb.bit 3 = s.pcb.bit 3 ∧
      u.pcb.bit 2 = s.pcb.bit 2) ∧
    (i.opcode = j.opcode → exec j { s with responses := s.responses ++ [0x00] } = .next u) ∧
    (i.opcode ≠ j.opcode → ∃ v, exec j s = .next v ∧ exec i v = .next u)

/-! ### Queries and BEGIN -/

/-- R120: QHALT reads chip address 0x00 with the five events of a single-register read and answers bit 7; no field of
the codec is written and `H` has no part in it. -/
def Obligations.QHaltAnswersChipHaltBit : Prop :=
  (∀ s : State, exec .qHalt s = .next { s with
    ptr := 1
    phase := .idle
    oracle := s.oracle.drop 1
    trace := s.trace ++ [.begin 0x68, .write 0x00, .stop, .request 0x68 1, .read (s.answer 0x00 0)]
    responses := s.responses ++ [0x00, if (s.answer 0x00 0).bit 7 then 0x01 else 0x00] }) ∧
  ∀ (s : State) (rest : List Byte), s.input = 0x18 :: rest → step s = exec .qHalt { s with input := rest }

/-- R121: Q24H reads chip address 0x02 and answers the complement of bit 6; no field of the codec is written. -/
def Obligations.Q24hAnswersChipModeBit : Prop :=
  (∀ s : State, exec .q24h s = .next { s with
    ptr := 3
    phase := .idle
    oracle := s.oracle.drop 1
    trace := s.trace ++ [.begin 0x68, .write 0x02, .stop, .request 0x68 1, .read (s.answer 0x02 0)]
    responses := s.responses ++ [0x00, if (s.answer 0x02 0).bit 6 then 0x00 else 0x01] }) ∧
  ∀ (s : State) (rest : List Byte), s.input = 0x19 :: rest → step s = exec .q24h { s with input := rest }

/-- R122: QSQWEN answers `ACB[4]`; no state written, no bus event. -/
def Obligations.QSqwEnAnswersCachedBit : Prop :=
  (∀ s : State, exec .qSqwEn s =
    .next { s with responses := s.responses ++ [0x00, if s.acb.bit 4 then 0x01 else 0x00] }) ∧
  ∀ (s : State) (rest : List Byte), s.input = 0x1A :: rest → step s = exec .qSqwEn { s with input := rest }

/-- R123: for an injective `FREQ_CODE`, QSQWFREQ answers the one number 0 to 3 whose pattern is `ACB[1:0]`; no state
written, no bus event. -/
def Obligations.QSqwFreqAnswersCachedCode : Prop :=
  (∀ s : State, s.params.freqCode.Injective → ∃ f : Byte,
    exec .qSqwFreq s = .next { s with responses := s.responses ++ [0x00, f] } ∧
    f.toNat ≤ 3 ∧
    [s.params.freqCode.f1hz, s.params.freqCode.f4khz, s.params.freqCode.f8khz, s.params.freqCode.f32khz][f.toNat]? =
      some (s.acb.setWidth 2)) ∧
  ∀ (s : State) (rest : List Byte), s.input = 0x1B :: rest → step s = exec .qSqwFreq { s with input := rest }

/-- R124: QSQWPOL answers the complement of `ACB[7]`; no state written, no bus event. -/
def Obligations.QSqwPolAnswersInvertedCachedBit : Prop :=
  (∀ s : State, exec .qSqwPol s =
    .next { s with responses := s.responses ++ [0x00, if s.acb.bit 7 then 0x00 else 0x01] }) ∧
  ∀ (s : State) (rest : List Byte), s.input = 0x1C :: rest → step s = exec .qSqwPol { s with input := rest }

/-- R125: BEGIN makes three single-register reads, of 0x07, 0x00 and 0x02 in that order, and writes all four fields
from them; it writes nothing to the chip. -/
def Obligations.BeginSynchronisesFromTheChip : Prop :=
  (∀ s : State,
    let c := s.oracle.getD 0 (Mem.read s.mem 7)
    let sec := s.oracle.getD 1 (Mem.read s.mem 0)
    let hrs := s.oracle.getD 2 (Mem.read s.mem 2)
    exec .sync s = .next { s with
      pcb := c
      acb := c
      halted := sec.bit 7
      use24 := !hrs.bit 6
      ptr := 3
      phase := .idle
      oracle := s.oracle.drop 3
      trace := s.trace ++
        [.begin 0x68, .write 0x07, .stop, .request 0x68 1, .read c,
         .begin 0x68, .write 0x00, .stop, .request 0x68 1, .read sec,
         .begin 0x68, .write 0x02, .stop, .request 0x68 1, .read hrs]
      responses := s.responses ++ [0x00] }) ∧
  ∀ (s : State) (rest : List Byte), s.input = 0x1F :: rest → step s = exec .sync { s with input := rest }

/-- R247: BEGIN discards pending intent: a setter before it, not committed, leaves no mark but its response. -/
def Obligations.BeginDiscardsPendingIntent : Prop :=
  ∀ (i : Instr) (s t u : State), IsSetter i → exec i s = .next t → exec .sync t = .next u →
    ∃ v, exec .sync s = .next v ∧ u = { v with responses := s.responses ++ [0x00, 0x00] }

/-- R241: BEGIN removes every dependence on the reset values: whatever the four fields held, it answers the same and
leaves the same state. -/
def Obligations.BeginRemovesResetDependence : Prop :=
  ∀ (s : State) (pcb acb : Byte) (halted use24 : Bool), ∃ t, exec .sync s = .next t ∧
    exec .sync { s with pcb := pcb, acb := acb, halted := halted, use24 := use24 } = .next t

/-- The cached queries depend on `ACB` alone of the codec and on nothing of the chip: whatever `PCB`, `H`, `F24`, the
chip's bytes, its pointer and its answers are, the response is the same (41_config_queries_begin.md R126). -/
def Obligations.CachedQueriesSeeOnlyAcb : Prop :=
  ∀ (i : Instr) (s t : State) (pcb : Byte) (halted use24 : Bool) (chip : ChipState),
    i = .qSqwEn ∨ i = .qSqwFreq ∨ i = .qSqwPol → exec i s = .next t →
    ∃ t', exec i { s with pcb := pcb, halted := halted, use24 := use24, mem := chip.mem, ptr := chip.ptr,
                          oracle := chip.oracle } = .next t' ∧
      t'.responses = t.responses ∧ t'.trace = s.trace

/-- The commands of R241 (3), the read-through queries among them, answer and act on the chip the same whatever the
four fields hold. -/
def Obligations.ReadThroughIgnoresCodecFields : Prop :=
  ∀ (i : Instr) (s t : State) (pcb acb : Byte) (halted use24 : Bool), NeedsNoField i → exec i s = .next t →
    ∃ t', exec i { s with pcb := pcb, acb := acb, halted := halted, use24 := use24 } = .next t' ∧
      t'.responses = t.responses ∧ t'.trace = t.trace ∧ t'.mem = t.mem

/-! ### Time commit -/

/-- R140 to R144: with every operand in range COMMIT writes the eight bytes of the frame at 0x00 in one transaction of
eleven events, then `ACB <- PCB`. -/
def Obligations.CommitWritesTheFrame : Prop :=
  ∀ (s : State) (t : TimeArgs) (pm : Bool), TimeInRange t s.use24 →
    let frame := frameFormula t pm s.halted s.use24 s.pcb
    exec (.commit t pm) s = .next { s with
      acb := s.pcb
      mem := Mem.writeList s.mem 0x00 frame
      ptr := 8
      phase := .idle
      trace := s.trace ++ ([.begin 0x68, .write 0x00] ++ frame.map .write ++ [.stop])
      responses := s.responses ++ [0x00] }

/-- R145, R146 and R148: for any operands at all COMMIT completes; a frame byte whose operand is in range is as R141 to
R143 say, one whose operand is out of range is an unspecified byte, and every other effect is the same: eleven events,
`ACB <- PCB`. An isPM byte above 0x01 is IllegalCommand with nothing written. -/
def Obligations.CommitOutOfRangeOperandFreesOneByte : Prop :=
  (∀ (s : State) (t : TimeArgs) (pm : Bool), ∃ frame : List Byte,
    frame.length = 8 ∧
    (∀ k : Nat, (frameGiven t s.use24)[k]? = some true →
      frame[k]? = (frameFormula t pm s.halted s.use24 s.pcb)[k]?) ∧
    (∀ k : Nat, (frameGiven t s.use24)[k]? = some false →
      ∃ n, s.draws ≤ n ∧ frame[k]? = some (Config.unspecified8 n)) ∧
    exec (.commit t pm) s = .next { s with
      acb := s.pcb
      mem := Mem.writeList s.mem 0x00 frame
      ptr := 8
      phase := .idle
      trace := s.trace ++ ([.begin 0x68, .write 0x00] ++ frame.map .write ++ [.stop])
      responses := s.responses ++ [0x00]
      draws := s.draws + (frameGiven t s.use24).count false }) ∧
  ∀ (s : State) (t : TimeArgs) (pm : Byte) (rest : List Byte),
    s.input = 0x20 :: t.second :: t.minute :: t.hour :: t.dayOfWeek :: t.dayOfMonth :: t.month :: t.year :: pm ::
      rest →
    step s = if pm.toNat ≤ 1 then exec (.commit t (decide (pm = 1))) { s with input := rest }
      else .next { s with input := rest, responses := s.responses ++ [0xFF], illegals := s.illegals + 1 }

/-- R147: COMMIT24 sets `F24` and is then exactly COMMIT with isPM 0; it has no illegal operand. Whatever the operands,
it completes, `F24` stays 1 and `ACB` is `PCB`. -/
def Obligations.Commit24ForcesUse24 : Prop :=
  (∀ (s : State) (t : TimeArgs), ∃ u, exec (.commit24 t) s = .next u ∧
    exec (.commit t false) { s with use24 := true } = .next u ∧
    u.use24 = true ∧ u.acb = s.pcb ∧ u.pcb = s.pcb ∧ u.halted = s.halted ∧
    u.responses = s.responses ++ [0x00]) ∧
  ∀ (s : State) (t : TimeArgs) (rest : List Byte),
    s.input = 0x21 :: t.second :: t.minute :: t.hour :: t.dayOfWeek :: t.dayOfMonth :: t.month :: t.year :: rest →
    step s = exec (.commit24 t) { s with input := rest }

/-- R80: COMMIT24 is SET24H 1 followed by COMMIT with AM: the same state and bus trace, one response against two. -/
def Obligations.Commit24IsSet24hThenCommit : Prop :=
  ∀ (s u v : State) (t : TimeArgs), exec (.set24h true) s = .next u → exec (.commit t false) u = .next v →
    ∃ w, exec (.commit24 t) s = .next w ∧ w.responses = s.responses ++ [0x00] ∧
      v = { w with responses := s.responses ++ [0x00, 0x00] }

/-- After COMMIT, COMMIT24 or BEGIN, `ACB = PCB` (10_state.md R26, R148). -/
def Obligations.ConfirmedControlEqualsPending : Prop :=
  ∀ (i : Instr) (s t : State), (∃ a pm, i = .commit a pm) ∨ (∃ a, i = .commit24 a) ∨ i = .sync →
    exec i s = .next t → t.acb = t.pcb

/-- For every injective `FREQ_CODE`: the frequency, enable and polarity set before a commit are what the cached
queries answer after it (41_config_queries_begin.md R122 to R124). -/
def Obligations.ConfigurationReadsBackAfterCommit : Prop :=
  ∀ (s s1 s2 s3 s4 s5 s6 s7 : State) (f : Freq) (en pol : Bool) (t : TimeArgs),
    s.params.freqCode.Injective →
    exec (.sqwFreq f) s = .next s1 → exec (.sqwEn en) s1 = .next s2 → exec (.sqwPol pol) s2 = .next s3 →
    exec (.commit24 t) s3 = .next s4 →
    exec .qSqwFreq s4 = .next s5 → exec .qSqwEn s5 = .next s6 → exec .qSqwPol s6 = .next s7 →
    s7.responses = s4.responses ++ [0x00, freqByte f, 0x00, Byte.ofBool en, 0x00, Byte.ofBool pol]

/-! ### Time read -/

/-- RDTIME reads the eight bytes at 0x00 with twelve events; a field whose masked byte is BCD is decoded (but for the
hour below), any other is an unspecified byte; `ACB` becomes the eighth byte and no other field changes
(43_time_read.md section 1). That a 12-hour hour whose low five bits decode to 0 or above 12 is an unspecified byte
too is the model's choice: it takes row U9 of 93_implementation_defined.md over R165 and the corner case of R167,
which give the number (log 20, DESIGN CHOICE). Of the flags byte it says what the chip's byte fixes: bit 0 is the
complement of bit 6 of the hours byte, bit 1 is its bit 5 in 12-hour mode, the rest is 0. -/
def Obligations.RdTimeDecodesTheFrame : Prop :=
  (∀ s : State, ∃ (fields : List Byte) (flags : Byte),
    fields.length = 7 ∧
    (∀ k : Nat, (readGiven (s.answer 0x00))[k]? = some true →
      fields[k]? = ((maskedFrame (s.answer 0x00)).map bcdValue)[k]?) ∧
    (∀ k : Nat, (readGiven (s.answer 0x00))[k]? = some false →
      ∃ n, s.draws ≤ n ∧ fields[k]? = some (Config.unspecified8 n)) ∧
    (flags.bit 0 = !(s.answer 0x00 2).bit 6 ∧ ((s.answer 0x00 2).bit 6 = true → flags.bit 1 = (s.answer 0x00 2).bit 5) ∧
      ∀ k, 2 ≤ k → flags.bit k = false) ∧
    exec .rdTime s = .next { s with
      acb := s.answer 0x00 7
      ptr := 8
      phase := .idle
      oracle := s.oracle.drop 8
      trace := s.trace ++
        [.begin 0x68, .write 0x00, .stop, .request 0x68 8,
         .read (s.answer 0x00 0), .read (s.answer 0x00 1), .read (s.answer 0x00 2), .read (s.answer 0x00 3),
         .read (s.answer 0x00 4), .read (s.answer 0x00 5), .read (s.answer 0x00 6), .read (s.answer 0x00 7)]
      responses := s.responses ++ 0x00 :: (fields ++ [flags])
      draws := s.draws + (readGiven (s.answer 0x00)).count false }) ∧
  ∀ (s : State) (rest : List Byte), s.input = 0x30 :: rest → step s = exec .rdTime { s with input := rest }

/-- In 24-hour mode RDTIME answers the flags byte 0x01: isPM is 0. That 0 is the spec's own decision on the document's
"PM undefined/false" (43_time_read.md section 1, decision D14; log 10); nothing else rests on it but the round trip. -/
def Obligations.RdTime24HourReadIsNotPm : Prop :=
  ∀ s : State, (s.answer 0x00 2).bit 6 = false →
    ∃ t fields, exec .rdTime s = .next t ∧ fields.length = 7 ∧ t.responses = s.responses ++ 0x00 :: (fields ++ [0x01])

/-- R168: a COMMIT with every operand in range followed by an RDTIME that reads back the eight bytes just written
answers the same time: every field equal, is24Hour the format of the commit; hours 13 to 23 in 12-hour mode come back
as 1 to 11 PM; `ACB` equals `PCB`. That isPM of a 24-hour read is 0 is the spec's own decision D14 (log 10). -/
def Obligations.CommitThenReadTimeRoundTrip : Prop :=
  ∀ (s u v : State) (t : TimeArgs) (pm : Bool), TimeInRange t s.use24 →
    exec (.commit t pm) s = .next u →
    u.answers 0x00 8 = frameFormula t pm s.halted s.use24 s.pcb →
    exec .rdTime u = .next v →
    v.acb = v.pcb ∧
    v.responses = u.responses ++
      [0x00, t.second, t.minute,
        (if s.use24 = false ∧ 12 < t.hour.toNat then t.hour - 12 else t.hour),
        t.dayOfWeek, t.dayOfMonth, t.month, t.year,
        (if s.use24 then 0x01 else if 12 < t.hour.toNat ∨ pm = true then 0x02 else 0x00)]

/-- The reference chip (20_memory.md R54), with no answer of its own pending, returns the frame a commit wrote, so the
premise of the round trip can be met. -/
def Obligations.ReferenceChipReturnsTheFrame : Prop :=
  ∀ (s u : State) (t : TimeArgs) (pm : Bool), Mem.wf s.mem = true → s.oracle = [] → TimeInRange t s.use24 →
    exec (.commit t pm) s = .next u → u.answers 0x00 8 = frameFormula t pm s.halted s.use24 s.pcb

/-! ### Single-register read and scratch memory -/

/-- R181: RDREG answers the chip's byte at its address with the five events of a single-register read, for every
address, and writes nothing; an address above 0x3F is IllegalCommand. The pointer ends one further (PTR_WRAP after
0x3F). -/
def Obligations.RdRegAnswersTheChipByte : Prop :=
  (∀ (s : State) (a : ChipAddr), exec (.rdReg a) s = .next { s with
    ptr := if a.toNat = 0x3F then s.params.ptrWrap else a + 1
    phase := .idle
    oracle := s.oracle.drop 1
    trace := s.trace ++
      [.begin 0x68, .write (a.setWidth 8), .stop, .request 0x68 1, .read (s.answer (a.setWidth 8) 0)]
    responses := s.responses ++ [0x00, s.answer (a.setWidth 8) 0] }) ∧
  ∀ (s : State) (a : Byte) (rest : List Byte), s.input = 0x40 :: a :: rest →
    step s = if a.toNat ≤ 0x3F then exec (.rdReg (a.setWidth 6)) { s with input := rest }
      else .next { s with input := rest, responses := s.responses ++ [0xFF], illegals := s.illegals + 1 }

/-- R187: MRD1 in range answers the byte at 0x08 + o with five events; dropped, it answers an unspecified byte with no
event. -/
def Obligations.Mrd1ReadsOneScratchByte : Prop :=
  (∀ (s : State) (o : Byte), exec (.mrd1 o) s =
    if o.toNat + 1 ≤ 56 then .next { s with
      ptr := s.ptrAfter (8 + o) 1
      phase := .idle
      oracle := s.oracle.drop 1
      trace := s.trace ++ [.begin 0x68, .write (8 + o), .stop, .request 0x68 1, .read (s.answer (8 + o) 0)]
      responses := s.responses ++ [0x00, s.answer (8 + o) 0] }
    else .next { s with
      responses := s.responses ++ [0x00, Config.unspecified8 s.draws]
      draws := s.draws + 1 }) ∧
  ∀ (s : State) (o : Byte) (rest : List Byte), s.input = 0x41 :: o :: rest →
    step s = exec (.mrd1 o) { s with input := rest }

/-- R188: MWR1 in range stores its byte at 0x08 + o with four events; dropped, it has no event; the response is the
same. -/
def Obligations.Mwr1WritesOneScratchByte : Prop :=
  (∀ (s : State) (o d : Byte), exec (.mwr1 o d) s =
    if o.toNat + 1 ≤ 56 then .next { s with
      mem := Mem.write s.mem (8 + o.toNat) d
      ptr := s.ptrAfter (8 + o) 1
      phase := .idle
      trace := s.trace ++ [.begin 0x68, .write (8 + o), .write d, .stop]
      responses := s.responses ++ [0x00] }
    else .next { s with responses := s.responses ++ [0x00] }) ∧
  ∀ (s : State) (o d : Byte) (rest : List Byte), s.input = 0x43 :: o :: d :: rest →
    step s = exec (.mwr1 o d) { s with input := rest }

/-- R190: MRDB in range answers `n` bytes in rising offset order, read in no segment, one, or one of 32 bytes and the
rest; dropped, it answers nothing with no event. -/
def Obligations.MrdbReadsInSegments : Prop :=
  (∀ (s : State) (o n : Byte), exec (.mrdb o n) s = .next (
    if 56 < o.toNat + n.toNat ∨ n = 0 then { s with responses := s.responses ++ [0x00] }
    else if n.toNat ≤ 32 then { s.afterRead (8 + o) n.toNat with
      responses := s.responses ++ 0x00 :: s.answers (8 + o) n.toNat }
    else { (s.afterRead (8 + o) 32).afterRead (8 + o + 32) (n.toNat - 32) with
      responses := s.responses ++ 0x00 :: s.answers (8 + o) n.toNat })) ∧
  ∀ (s : State) (o n : Byte) (rest : List Byte), s.input = 0x42 :: o :: n :: rest →
    step s = exec (.mrdb o n) { s with input := rest }

/-- R191: MWRB in range writes its data in no segment, one, or one of 32 bytes and the rest; dropped, it has no event,
and its data bytes are consumed all the same. -/
def Obligations.MwrbWritesInSegments : Prop :=
  (∀ (s : State) (o : Byte) (data : List Byte), exec (.mwrb o data) s = .next (
    if 56 < o.toNat + data.length ∨ data = [] then { s with responses := s.responses ++ [0x00] }
    else if data.length ≤ 32 then { s.afterWrite (8 + o) data with responses := s.responses ++ [0x00] }
    else { (s.afterWrite (8 + o) (data.take 32)).afterWrite (8 + o + 32) (data.drop 32) with
      responses := s.responses ++ [0x00] })) ∧
  ∀ (s : State) (o n : Byte) (data rest : List Byte), data.length = n.toNat →
    s.input = 0x44 :: o :: n :: (data ++ rest) → step s = exec (.mwrb o data) { s with input := rest }

/-- Where the data of MWRB lands, byte by byte: in range, the chip's byte at 0x08 + o + k is data byte `k`, every other
byte as before, whatever the segments (44_scratch_memory.md R191). -/
def Obligations.MwrbDataLandsAtItsOffset : Prop :=
  ∀ (s t : State) (o : Byte) (data : List Byte) (a : Nat), Mem.wf s.mem = true → o.toNat + data.length ≤ 56 →
    exec (.mwrb o data) s = .next t →
    Mem.read t.mem a =
      if 8 + o.toNat ≤ a ∧ a < 8 + o.toNat + data.length then data.getD (a - (8 + o.toNat)) 0
      else Mem.read s.mem a

/-- On the reference chip a block write in range followed by a block read of the same extent answers the data
(20_memory.md R54). -/
def Obligations.ScratchWriteReadsBack : Prop :=
  ∀ (s t u : State) (o n : Byte) (data : List Byte), Mem.wf s.mem = true → s.oracle = [] →
    data.length = n.toNat → o.toNat + n.toNat ≤ 56 →
    exec (.mwrb o data) s = .next t → exec (.mrdb o n) t = .next u →
    u.responses = s.responses ++ [0x00] ++ 0x00 :: data

/-- R186: a scratch request whose offset and extent add up to more than 56, on natural numbers, is dropped by each of
the four commands: no bus event, no field, no chip byte, status 0x00. -/
def Obligations.OutOfRangeRequestsAreDropped : Prop :=
  ∀ (s : State) (o n d : Byte) (data : List Byte),
    (56 < o.toNat + 1 → exec (.mrd1 o) s = .next { s with
      responses := s.responses ++ [0x00, Config.unspecified8 s.draws], draws := s.draws + 1 }) ∧
    (56 < o.toNat + n.toNat → exec (.mrdb o n) s = .next { s with responses := s.responses ++ [0x00] }) ∧
    (56 < o.toNat + 1 → exec (.mwr1 o d) s = .next { s with responses := s.responses ++ [0x00] }) ∧
    (56 < o.toNat + data.length → exec (.mwrb o data) s = .next { s with responses := s.responses ++ [0x00] })

/-- R192: under the range check the final-segment shrink never fires: every segment of a request in range is as long
as the block limit allows, is not empty, and ends at or before 0x3F. -/
def Obligations.SegmentShrinkNeverFires : Prop :=
  ∀ o n : Nat, o + n ≤ 56 → ∀ seg ∈ segments o n, ∃ rem, seg.1 + rem = o + n ∧ seg.2 = min rem 32 ∧ 1 ≤ seg.2 ∧
    0x08 + seg.1 + seg.2 - 1 ≤ 0x3F

/-- R182: addresses 0x00 to 0x07 are written only by the whole-frame commit. -/
def Obligations.ClockRegistersWrittenOnlyByCommit : Prop :=
  ∀ (i : Instr) (s t : State) (a : Nat), Mem.wf s.mem = true → exec i s = .next t → a < 8 →
    Mem.read t.mem a ≠ Mem.read s.mem a →
    ((∃ x pm, i = .commit x pm) ∨ (∃ x, i = .commit24 x)) ∧
      ∃ frame : List Byte, frame.length = 8 ∧
        t.trace = s.trace ++ ([.begin 0x68, .write 0x00] ++ frame.map .write ++ [.stop]) ∧
        t.mem = Mem.writeList s.mem 0 frame

/-! ### BCD -/

/-- R202 (and R200, R206): D2B answers the BCD of 0 to 99, an unspecified byte otherwise; nothing else happens. -/
def Obligations.D2bEncodes : Prop :=
  (∀ (s : State) (v : Byte), exec (.d2b v) s =
    if v.toNat ≤ 99 then .next { s with responses := s.responses ++ [0x00, bcdByte v] }
    else .next { s with responses := s.responses ++ [0x00, Config.unspecified8 s.draws], draws := s.draws + 1 }) ∧
  ∀ (s : State) (v : Byte) (rest : List Byte), s.input = 0x50 :: v :: rest →
    step s = exec (.d2b v) { s with input := rest }

/-- R203 (and R201, R206): B2D answers the value of a BCD byte, an unspecified byte otherwise; nothing else happens. -/
def Obligations.B2dDecodes : Prop :=
  (∀ (s : State) (b : Byte), exec (.b2d b) s =
    if IsBcd b then .next { s with responses := s.responses ++ [0x00, bcdValue b] }
    else .next { s with responses := s.responses ++ [0x00, Config.unspecified8 s.draws], draws := s.draws + 1 }) ∧
  ∀ (s : State) (b : Byte) (rest : List Byte), s.input = 0x51 :: b :: rest →
    step s = exec (.b2d b) { s with input := rest }

/-- R204 on the two commands: for 0 to 99, B2D of what D2B answered answers the value back. -/
def Obligations.BcdCommandsRoundTrip : Prop :=
  ∀ (s t : State) (v : Byte), v.toNat ≤ 99 → exec (.d2b v) s = .next t →
    ∃ b u, t.responses = s.responses ++ [0x00, b] ∧ exec (.b2d b) t = .next u ∧
      u.responses = t.responses ++ [0x00, v]

/-- R204 and R205: the formulas of the two functions are inverse to each other between 0 to 99 and the valid BCD
bytes, and D2B is onto the valid BCD bytes. -/
def Obligations.BcdFunctionsAreInverse : Prop :=
  (∀ v : Byte, v.toNat ≤ 99 → ∃ b, toBcd v = some b ∧ IsBcd b ∧ ofBcd b = some v) ∧
  ∀ b : Byte, IsBcd b → ∃ v, ofBcd b = some v ∧ v.toNat ≤ 99 ∧ toBcd v = some b

/-! ### The whole machine -/

/-- R26, the write matrix: no command writes a field its row leaves empty, whatever its operands, and the fields its
row names become what the row says. -/
def Obligations.WriteMatrixHolds : Prop :=
  ∀ (i : Instr) (s t : State), exec i s = .next t →
    (Field.pcb ∉ mayWrite i → t.pcb = s.pcb) ∧
    (Field.acb ∉ mayWrite i → t.acb = s.acb) ∧
    (Field.halted ∉ mayWrite i → t.halted = s.halted) ∧
    (Field.use24 ∉ mayWrite i → t.use24 = s.use24) ∧
    (∀ b, i = .setHalt b → t.halted = b) ∧
    (∀ b, i = .set24h b → t.use24 = b) ∧
    (∀ b, i = .sqwEn b → t.pcb.bit 4 = b ∧ ∀ k, k ≠ 4 → t.pcb.bit k = s.pcb.bit k) ∧
    (∀ f, i = .sqwFreq f → t.pcb.setWidth 2 = freqPattern s.params.freqCode f ∧
      ∀ k, 2 ≤ k → t.pcb.bit k = s.pcb.bit k) ∧
    (∀ p, i = .sqwPol p → t.pcb.bit 7 = !p ∧ ∀ k, k ≠ 7 → t.pcb.bit k = s.pcb.bit k) ∧
    (i = .sync → t.pcb = s.answer 0x07 0 ∧ t.acb = s.answer 0x07 0 ∧
      t.halted = (s.oracle.getD 1 (Mem.read s.mem 0x00)).bit 7 ∧
      t.use24 = !(s.oracle.getD 2 (Mem.read s.mem 0x02)).bit 6) ∧
    (∀ a pm, i = .commit a pm → t.acb = s.pcb) ∧
    (∀ a, i = .commit24 a → t.acb = s.pcb ∧ t.use24 = true) ∧
    (i = .rdTime → t.acb = s.answer 0x00 7)

/-- The frame of chip memory: every byte a command does not store to reads as before. -/
def Obligations.ChipBytesNotStoredToAreKept : Prop :=
  ∀ (i : Instr) (s t : State) (a : Nat), Mem.wf s.mem = true → exec i s = .next t → storesTo a i = false →
    Mem.read t.mem a = Mem.read s.mem a

/-- The frame of the ports and parameters: no command consumes further input, changes the parameters, forgets an event
or a response, or counts an IllegalCommand; and every command completes, whatever the chip answers (R52). -/
def Obligations.EveryCommandCompletes : Prop :=
  ∀ (i : Instr) (s : State) (answers : List Byte), ∃ t, exec i { s with oracle := answers } = .next t ∧
    t.input = s.input ∧ t.params = s.params ∧ t.illegals = s.illegals ∧
    s.trace <+: t.trace ∧ s.responses <+: t.responses

/-- One response a command: the status byte 0x00 and a payload of the length of R73's table. -/
def Obligations.OneResponsePerCommand : Prop :=
  ∀ (i : Instr) (s t : State), exec i s = .next t →
    ∃ payload : List Byte, t.responses = s.responses ++ 0x00 :: payload ∧ payload.length = payloadLength i

/-- The accesses a command makes are whole reads and writes of 1 to 32 bytes inside 0x00 to 0x3F and nothing else
(20_memory.md R43 to R47, R49). -/
def Obligations.BusTraceIsLegalTransactions : Prop :=
  ∀ (i : Instr) (s t : State), exec i s = .next t →
    ∃ xs : List Transaction, (∀ x ∈ xs, x.legal = true) ∧ t.trace = s.trace ++ xs.flatMap Transaction.events

/-- No command's result depends on where an earlier command left the register pointer (10_state.md R34), or on how it
left the bus. -/
def Obligations.EarlierPointerDoesNotMatter : Prop :=
  ∀ (i : Instr) (s t : State) (ptr : ChipAddr) (phase : BusPhase), exec i s = .next t →
    ∃ t', exec i { s with ptr := ptr, phase := phase } = .next t' ∧
      t' = { t with ptr := t'.ptr, phase := t'.phase }
end

