-- ==== Sys2Proof/Laws/Decode.lean ====
section
/-! SUPPORT. The small lemmas of the decoder: each operand byte is read back, and which opcode bytes there are. -/

namespace Sys2Proof

/-- Every opcode byte names its opcode. -/
@[simp] theorem Opcode.ofByte_byte (o : Opcode) : Opcode.ofByte o.byte = some o := by
  cases o <;> decide

/-- An opcode byte is the byte of the opcode it names. -/
theorem Opcode.byte_of_ofByte {b : Byte} {o : Opcode} (h : Opcode.ofByte b = some o) : o.byte = b := by
  have := List.find?_some h
  simpa using this

@[simp] theorem boolOfByte_ofBool (b : Bool) : boolOfByte (Byte.ofBool b) = some b := by
  cases b <;> decide

@[simp] theorem freqOfByte_freqByte (f : Freq) : freqOfByte (freqByte f) = some f := by
  cases f <;> decide

@[simp] theorem addrOfByte_setWidth (a : ChipAddr) : addrOfByte (a.setWidth 8) = some a := by
  have ha := a.isLt
  have h : (a.setWidth 8 : Byte).toNat = a.toNat := by
    rw [BitVec.toNat_setWidth, Nat.mod_eq_of_lt (by omega)]
  unfold addrOfByte
  rw [if_pos (by rw [h]; exact ha), Option.some.injEq]
  apply BitVec.eq_of_toNat_eq
  rw [BitVec.toNat_setWidth, h, Nat.mod_eq_of_lt (by omega)]

theorem ofBool_of_boolOfByte {a : Byte} {b : Bool} (h : boolOfByte a = some b) : a = Byte.ofBool b := by
  unfold boolOfByte at h
  split at h
  · cases h; assumption
  · split at h
    · cases h; assumption
    · cases h

theorem freqByte_of_freqOfByte {a : Byte} {f : Freq} (h : freqOfByte a = some f) : a = freqByte f := by
  unfold freqOfByte at h
  repeat (split at h; · cases h; assumption)
  cases h

theorem setWidth_of_addrOfByte {a : Byte} {c : ChipAddr} (h : addrOfByte a = some c) : a = c.setWidth 8 := by
  unfold addrOfByte at h
  split at h
  · rename_i ha
    cases h
    have ha : a.toNat < 64 := ha
    apply BitVec.eq_of_toNat_eq
    rw [BitVec.toNat_setWidth, BitVec.toNat_setWidth]
    omega
  · cases h

/-- A boolean byte above 0x01 is illegal, and only such a byte (30_encoding.md R74). -/
theorem boolOfByte_eq_none {a : Byte} : boolOfByte a = none ↔ 1 < a.toNat := by
  revert a; decide

/-- A frequency byte above 0x03 is illegal, and only such a byte (30_encoding.md R74). -/
theorem freqOfByte_eq_none {a : Byte} : freqOfByte a = none ↔ 3 < a.toNat := by
  revert a; decide

/-- A chip address byte above 0x3F is illegal, and only such a byte (30_encoding.md R74). -/
theorem addrOfByte_eq_none {a : Byte} : addrOfByte a = none ↔ 0x3F < a.toNat := by
  unfold addrOfByte
  split
  · rename_i h
    have h : a.toNat < 64 := h
    simp; omega
  · rename_i h
    have h : ¬ a.toNat < 64 := h
    simp; omega

/-- The decoder's verdict from the opcode. -/
theorem decode_cons (b : Byte) (args : List Byte) :
    decode (b :: args) =
      match Opcode.ofByte b with
      | some op => decodeOperands op args
      | none => .illegal (.unknownOpcode b) args := rfl

/-- A command's bytes are decoded by its opcode. -/
theorem decode_opcode (o : Opcode) (args : List Byte) : decode (o.byte :: args) = decodeOperands o args := by
  rw [decode_cons, Opcode.ofByte_byte]

end Sys2Proof
end

