-- ==== Sys2Proof/Laws/Memory.lean ====
section
/-! SUPPORT. Chip memory: a read after a write, and that every memory operation keeps the canonical form. -/

namespace Sys2Proof.Machine

@[simp] theorem Mem.read_nil (a : Nat) : Mem.read [] a = Config.unlistedByte := rfl

theorem Mem.read_entry (a : Nat) (b : Byte) (x : Nat) :
    Mem.read (Mem.entry a b) x = if a = x then b else Config.unlistedByte := by
  unfold Mem.entry
  split <;> simp_all [Mem.read]

/-- Every entry of `m` lies at `lo` or above. -/
def Mem.above (lo : Nat) (m : Mem) : Prop := ∀ c ∈ m, lo ≤ c.1

theorem Mem.read_of_above {lo : Nat} {m : Mem} (h : Mem.above lo m) {a : Nat} (ha : a < lo) :
    Mem.read m a = Config.unlistedByte := by
  induction m with
  | nil => rfl
  | cons c m ih =>
    obtain ⟨k, v⟩ := c
    have hk : lo ≤ k := h (k, v) (by simp)
    have hm : Mem.above lo m := fun c hc => h c (by simp [hc])
    simp only [Mem.read, ih hm]
    rw [if_neg (by omega)]

/-- The canonical form as propositions. -/
theorem Mem.wf_iff (m : Mem) :
    Mem.wf m = true ↔ m.Pairwise (fun x y => x.1 < y.1) ∧
      ∀ c ∈ m, c.1 < Config.addrSpace ∧ c.2 ≠ Config.unlistedByte := by
  simp [Mem.wf]

theorem Mem.wf_tail {c : Host.Cell} {m : Mem} (h : Mem.wf (c :: m) = true) :
    Mem.wf m = true ∧ Mem.above (c.1 + 1) m := by
  rw [Mem.wf_iff, List.pairwise_cons] at h
  refine ⟨(Mem.wf_iff m).mpr ⟨h.1.2, fun d hd => h.2 d (by simp [hd])⟩, fun d hd => ?_⟩
  exact h.1.1 d hd

theorem Mem.read_entry_append (a : Nat) (b : Byte) {m : Mem} (h : Mem.above (a + 1) m) (x : Nat) :
    Mem.read (Mem.entry a b ++ m) x = if a = x then b else Mem.read m x := by
  unfold Mem.entry
  split
  · rename_i hb
    split
    · rename_i hax
      simpa [hb] using Mem.read_of_above h (by omega)
    · rfl
  · simp [Mem.read]

/-- A read after a write: the byte written at its address, any other address as before. -/
theorem Mem.read_write {m : Mem} (h : Mem.wf m = true) (a : Nat) (b : Byte) (x : Nat) :
    Mem.read (Mem.write m a b) x = if a = x then b else Mem.read m x := by
  induction m with
  | nil => simp [Mem.write, Mem.read_entry]
  | cons c m ih =>
    obtain ⟨k, v⟩ := c
    obtain ⟨hm, hf⟩ := Mem.wf_tail h
    simp only [Mem.write]
    split
    · simp only [Mem.read, ih hm]
      split <;> split <;> first | rfl | omega
    · split
      · rename_i _ hk
        subst hk
        rw [Mem.read_entry_append k b hf]
        simp only [Mem.read]
        split <;> rfl
      · rename_i h1 h2
        refine Mem.read_entry_append a b (fun d hd => ?_) x
        simp only [List.mem_cons] at hd
        rcases hd with rfl | hd
        · show a + 1 ≤ k; omega
        · have := hf d hd
          simp only at this
          omega

theorem Mem.above_write {lo : Nat} {m : Mem} (h : Mem.above lo m) {a : Nat} (ha : lo ≤ a) (b : Byte) :
    Mem.above lo (Mem.write m a b) := by
  have he : Mem.above lo (Mem.entry a b) := by
    unfold Mem.entry Mem.above
    split <;> simp [ha]
  induction m with
  | nil => exact he
  | cons c m ih =>
    obtain ⟨k, v⟩ := c
    have hm : Mem.above lo m := fun d hd => h d (by simp [hd])
    simp only [Mem.write]
    split
    · intro d hd
      rcases List.mem_cons.mp hd with rfl | hd
      · exact h _ (by simp)
      · exact ih hm d hd
    · split
      · intro d hd
        rcases List.mem_append.mp hd with hd | hd
        · exact he d hd
        · exact hm d hd
      · intro d hd
        rcases List.mem_append.mp hd with hd | hd
        · exact he d hd
        · exact h d hd

theorem Mem.wf_cons {c : Host.Cell} {m : Mem} (hm : Mem.wf m = true) (hf : Mem.above (c.1 + 1) m)
    (hc : c.1 < Config.addrSpace) (hv : c.2 ≠ Config.unlistedByte) : Mem.wf (c :: m) = true := by
  rw [Mem.wf_iff] at hm ⊢
  refine ⟨List.pairwise_cons.mpr ⟨fun d hd => hf d hd, hm.1⟩, fun d hd => ?_⟩
  rcases List.mem_cons.mp hd with rfl | hd
  · exact ⟨hc, hv⟩
  · exact hm.2 d hd

theorem Mem.wf_entry_append {m : Mem} (hm : Mem.wf m = true) {a : Nat} (hf : Mem.above (a + 1) m)
    (ha : a < Config.addrSpace) (b : Byte) : Mem.wf (Mem.entry a b ++ m) = true := by
  unfold Mem.entry
  split
  · exact hm
  · exact Mem.wf_cons hm hf ha ‹_›

/-- A write keeps the canonical form. -/
theorem Mem.wf_write {m : Mem} (h : Mem.wf m = true) {a : Nat} (ha : a < Config.addrSpace) (b : Byte) :
    Mem.wf (Mem.write m a b) = true := by
  induction m with
  | nil =>
    have hw := Mem.wf_entry_append (m := []) h (fun _ hd => by cases hd) ha b
    rwa [List.append_nil] at hw
  | cons c m ih =>
    obtain ⟨k, v⟩ := c
    obtain ⟨hm, hf⟩ := Mem.wf_tail h
    have hc := ((Mem.wf_iff _).mp h).2 (k, v) (by simp)
    simp only [Mem.write]
    split
    · exact Mem.wf_cons (ih hm) (Mem.above_write hf (by simp only; omega) b) hc.1 hc.2
    · split
      · rename_i _ hk
        subst hk
        exact Mem.wf_entry_append hm hf ha b
      · refine Mem.wf_entry_append h (fun d hd => ?_) ha b
        rcases List.mem_cons.mp hd with rfl | hd
        · show a + 1 ≤ k; omega
        · have := hf d hd
          simp only at this
          omega

/-- Writing bytes at rising addresses keeps the canonical form. -/
theorem Mem.wf_writeList {m : Mem} (h : Mem.wf m = true) (a : Nat) (bs : List Byte)
    (ha : a + bs.length ≤ Config.addrSpace) : Mem.wf (Mem.writeList m a bs) = true := by
  induction bs generalizing m a with
  | nil => exact h
  | cons b bs ih =>
    simp only [List.length_cons] at ha
    exact ih (Mem.wf_write h (by omega) b) (a + 1) (by omega)

/-- A read after writing bytes at rising addresses. -/
theorem Mem.read_writeList {m : Mem} (h : Mem.wf m = true) (a : Nat) (bs : List Byte)
    (ha : a + bs.length ≤ Config.addrSpace) (x : Nat) :
    Mem.read (Mem.writeList m a bs) x =
      if a ≤ x ∧ x < a + bs.length then bs.getD (x - a) 0 else Mem.read m x := by
  induction bs generalizing m a with
  | nil => simp [Mem.writeList]
  | cons b bs ih =>
    simp only [List.length_cons] at ha ⊢
    have hw := Mem.wf_write h (a := a) (by omega) b
    simp only [Mem.writeList]
    rw [ih hw (a + 1) (by omega), Mem.read_write h]
    by_cases hx : a = x
    · subst hx
      rw [if_neg (by omega), if_pos rfl, if_pos (by omega)]
      simp
    · by_cases hy : a + 1 ≤ x ∧ x < a + 1 + bs.length
      · rw [if_pos hy, if_pos (by omega)]
        obtain ⟨k, hk⟩ : ∃ k, x - a = k + 1 := ⟨x - a - 1, by omega⟩
        rw [hk, List.getD_cons_succ]
        congr 1
        omega
      · rw [if_neg hy, if_neg hx, if_neg (by omega)]

/-- Bytes written one after another are written as one list. -/
theorem Mem.writeList_append (m : Mem) (a : Nat) (bs cs : List Byte) :
    Mem.writeList m a (bs ++ cs) = Mem.writeList (Mem.writeList m a bs) (a + bs.length) cs := by
  induction bs generalizing m a with
  | nil => rfl
  | cons b bs ih =>
    simp only [List.cons_append, Mem.writeList, List.length_cons]
    rw [ih]
    congr 1
    omega

end Sys2Proof.Machine
end

