-- ==== Sys2Proof/Laws/State.lean ====
section
/-! SUPPORT. What each field update of Machine/Ops.lean does to each field of the state, one lemma a field. -/

namespace Sys2Proof.Machine

/-! ### State.setPcb -/

@[simp] theorem State.setPcb_pcb (s : State) (v : Byte) : (s.setPcb v).pcb = v := rfl
@[simp] theorem State.setPcb_acb (s : State) (v : Byte) : (s.setPcb v).acb = s.acb := rfl
@[simp] theorem State.setPcb_halted (s : State) (v : Byte) : (s.setPcb v).halted = s.halted := rfl
@[simp] theorem State.setPcb_use24 (s : State) (v : Byte) : (s.setPcb v).use24 = s.use24 := rfl
@[simp] theorem State.setPcb_mem (s : State) (v : Byte) : (s.setPcb v).mem = s.mem := rfl
@[simp] theorem State.setPcb_ptr (s : State) (v : Byte) : (s.setPcb v).ptr = s.ptr := rfl
@[simp] theorem State.setPcb_phase (s : State) (v : Byte) : (s.setPcb v).phase = s.phase := rfl
@[simp] theorem State.setPcb_oracle (s : State) (v : Byte) : (s.setPcb v).oracle = s.oracle := rfl
@[simp] theorem State.setPcb_trace (s : State) (v : Byte) : (s.setPcb v).trace = s.trace := rfl
@[simp] theorem State.setPcb_input (s : State) (v : Byte) : (s.setPcb v).input = s.input := rfl
@[simp] theorem State.setPcb_responses (s : State) (v : Byte) : (s.setPcb v).responses = s.responses := rfl
@[simp] theorem State.setPcb_illegals (s : State) (v : Byte) : (s.setPcb v).illegals = s.illegals := rfl
@[simp] theorem State.setPcb_draws (s : State) (v : Byte) : (s.setPcb v).draws = s.draws := rfl
@[simp] theorem State.setPcb_params (s : State) (v : Byte) : (s.setPcb v).params = s.params := rfl

/-! ### State.setAcb -/

@[simp] theorem State.setAcb_pcb (s : State) (v : Byte) : (s.setAcb v).pcb = s.pcb := rfl
@[simp] theorem State.setAcb_acb (s : State) (v : Byte) : (s.setAcb v).acb = v := rfl
@[simp] theorem State.setAcb_halted (s : State) (v : Byte) : (s.setAcb v).halted = s.halted := rfl
@[simp] theorem State.setAcb_use24 (s : State) (v : Byte) : (s.setAcb v).use24 = s.use24 := rfl
@[simp] theorem State.setAcb_mem (s : State) (v : Byte) : (s.setAcb v).mem = s.mem := rfl
@[simp] theorem State.setAcb_ptr (s : State) (v : Byte) : (s.setAcb v).ptr = s.ptr := rfl
@[simp] theorem State.setAcb_phase (s : State) (v : Byte) : (s.setAcb v).phase = s.phase := rfl
@[simp] theorem State.setAcb_oracle (s : State) (v : Byte) : (s.setAcb v).oracle = s.oracle := rfl
@[simp] theorem State.setAcb_trace (s : State) (v : Byte) : (s.setAcb v).trace = s.trace := rfl
@[simp] theorem State.setAcb_input (s : State) (v : Byte) : (s.setAcb v).input = s.input := rfl
@[simp] theorem State.setAcb_responses (s : State) (v : Byte) : (s.setAcb v).responses = s.responses := rfl
@[simp] theorem State.setAcb_illegals (s : State) (v : Byte) : (s.setAcb v).illegals = s.illegals := rfl
@[simp] theorem State.setAcb_draws (s : State) (v : Byte) : (s.setAcb v).draws = s.draws := rfl
@[simp] theorem State.setAcb_params (s : State) (v : Byte) : (s.setAcb v).params = s.params := rfl

/-! ### State.setHalted -/

@[simp] theorem State.setHalted_pcb (s : State) (v : Bool) : (s.setHalted v).pcb = s.pcb := rfl
@[simp] theorem State.setHalted_acb (s : State) (v : Bool) : (s.setHalted v).acb = s.acb := rfl
@[simp] theorem State.setHalted_halted (s : State) (v : Bool) : (s.setHalted v).halted = v := rfl
@[simp] theorem State.setHalted_use24 (s : State) (v : Bool) : (s.setHalted v).use24 = s.use24 := rfl
@[simp] theorem State.setHalted_mem (s : State) (v : Bool) : (s.setHalted v).mem = s.mem := rfl
@[simp] theorem State.setHalted_ptr (s : State) (v : Bool) : (s.setHalted v).ptr = s.ptr := rfl
@[simp] theorem State.setHalted_phase (s : State) (v : Bool) : (s.setHalted v).phase = s.phase := rfl
@[simp] theorem State.setHalted_oracle (s : State) (v : Bool) : (s.setHalted v).oracle = s.oracle := rfl
@[simp] theorem State.setHalted_trace (s : State) (v : Bool) : (s.setHalted v).trace = s.trace := rfl
@[simp] theorem State.setHalted_input (s : State) (v : Bool) : (s.setHalted v).input = s.input := rfl
@[simp] theorem State.setHalted_responses (s : State) (v : Bool) : (s.setHalted v).responses = s.responses := rfl
@[simp] theorem State.setHalted_illegals (s : State) (v : Bool) : (s.setHalted v).illegals = s.illegals := rfl
@[simp] theorem State.setHalted_draws (s : State) (v : Bool) : (s.setHalted v).draws = s.draws := rfl
@[simp] theorem State.setHalted_params (s : State) (v : Bool) : (s.setHalted v).params = s.params := rfl

/-! ### State.setUse24 -/

@[simp] theorem State.setUse24_pcb (s : State) (v : Bool) : (s.setUse24 v).pcb = s.pcb := rfl
@[simp] theorem State.setUse24_acb (s : State) (v : Bool) : (s.setUse24 v).acb = s.acb := rfl
@[simp] theorem State.setUse24_halted (s : State) (v : Bool) : (s.setUse24 v).halted = s.halted := rfl
@[simp] theorem State.setUse24_use24 (s : State) (v : Bool) : (s.setUse24 v).use24 = v := rfl
@[simp] theorem State.setUse24_mem (s : State) (v : Bool) : (s.setUse24 v).mem = s.mem := rfl
@[simp] theorem State.setUse24_ptr (s : State) (v : Bool) : (s.setUse24 v).ptr = s.ptr := rfl
@[simp] theorem State.setUse24_phase (s : State) (v : Bool) : (s.setUse24 v).phase = s.phase := rfl
@[simp] theorem State.setUse24_oracle (s : State) (v : Bool) : (s.setUse24 v).oracle = s.oracle := rfl
@[simp] theorem State.setUse24_trace (s : State) (v : Bool) : (s.setUse24 v).trace = s.trace := rfl
@[simp] theorem State.setUse24_input (s : State) (v : Bool) : (s.setUse24 v).input = s.input := rfl
@[simp] theorem State.setUse24_responses (s : State) (v : Bool) : (s.setUse24 v).responses = s.responses := rfl
@[simp] theorem State.setUse24_illegals (s : State) (v : Bool) : (s.setUse24 v).illegals = s.illegals := rfl
@[simp] theorem State.setUse24_draws (s : State) (v : Bool) : (s.setUse24 v).draws = s.draws := rfl
@[simp] theorem State.setUse24_params (s : State) (v : Bool) : (s.setUse24 v).params = s.params := rfl

/-! ### State.setMem -/

@[simp] theorem State.setMem_pcb (s : State) (m : Mem) : (s.setMem m).pcb = s.pcb := rfl
@[simp] theorem State.setMem_acb (s : State) (m : Mem) : (s.setMem m).acb = s.acb := rfl
@[simp] theorem State.setMem_halted (s : State) (m : Mem) : (s.setMem m).halted = s.halted := rfl
@[simp] theorem State.setMem_use24 (s : State) (m : Mem) : (s.setMem m).use24 = s.use24 := rfl
@[simp] theorem State.setMem_mem (s : State) (m : Mem) : (s.setMem m).mem = m := rfl
@[simp] theorem State.setMem_ptr (s : State) (m : Mem) : (s.setMem m).ptr = s.ptr := rfl
@[simp] theorem State.setMem_phase (s : State) (m : Mem) : (s.setMem m).phase = s.phase := rfl
@[simp] theorem State.setMem_oracle (s : State) (m : Mem) : (s.setMem m).oracle = s.oracle := rfl
@[simp] theorem State.setMem_trace (s : State) (m : Mem) : (s.setMem m).trace = s.trace := rfl
@[simp] theorem State.setMem_input (s : State) (m : Mem) : (s.setMem m).input = s.input := rfl
@[simp] theorem State.setMem_responses (s : State) (m : Mem) : (s.setMem m).responses = s.responses := rfl
@[simp] theorem State.setMem_illegals (s : State) (m : Mem) : (s.setMem m).illegals = s.illegals := rfl
@[simp] theorem State.setMem_draws (s : State) (m : Mem) : (s.setMem m).draws = s.draws := rfl
@[simp] theorem State.setMem_params (s : State) (m : Mem) : (s.setMem m).params = s.params := rfl

/-! ### State.setPtr -/

@[simp] theorem State.setPtr_pcb (s : State) (p : ChipAddr) : (s.setPtr p).pcb = s.pcb := rfl
@[simp] theorem State.setPtr_acb (s : State) (p : ChipAddr) : (s.setPtr p).acb = s.acb := rfl
@[simp] theorem State.setPtr_halted (s : State) (p : ChipAddr) : (s.setPtr p).halted = s.halted := rfl
@[simp] theorem State.setPtr_use24 (s : State) (p : ChipAddr) : (s.setPtr p).use24 = s.use24 := rfl
@[simp] theorem State.setPtr_mem (s : State) (p : ChipAddr) : (s.setPtr p).mem = s.mem := rfl
@[simp] theorem State.setPtr_ptr (s : State) (p : ChipAddr) : (s.setPtr p).ptr = p := rfl
@[simp] theorem State.setPtr_phase (s : State) (p : ChipAddr) : (s.setPtr p).phase = s.phase := rfl
@[simp] theorem State.setPtr_oracle (s : State) (p : ChipAddr) : (s.setPtr p).oracle = s.oracle := rfl
@[simp] theorem State.setPtr_trace (s : State) (p : ChipAddr) : (s.setPtr p).trace = s.trace := rfl
@[simp] theorem State.setPtr_input (s : State) (p : ChipAddr) : (s.setPtr p).input = s.input := rfl
@[simp] theorem State.setPtr_responses (s : State) (p : ChipAddr) : (s.setPtr p).responses = s.responses := rfl
@[simp] theorem State.setPtr_illegals (s : State) (p : ChipAddr) : (s.setPtr p).illegals = s.illegals := rfl
@[simp] theorem State.setPtr_draws (s : State) (p : ChipAddr) : (s.setPtr p).draws = s.draws := rfl
@[simp] theorem State.setPtr_params (s : State) (p : ChipAddr) : (s.setPtr p).params = s.params := rfl

/-! ### State.setPhase -/

@[simp] theorem State.setPhase_pcb (s : State) (p : BusPhase) : (s.setPhase p).pcb = s.pcb := rfl
@[simp] theorem State.setPhase_acb (s : State) (p : BusPhase) : (s.setPhase p).acb = s.acb := rfl
@[simp] theorem State.setPhase_halted (s : State) (p : BusPhase) : (s.setPhase p).halted = s.halted := rfl
@[simp] theorem State.setPhase_use24 (s : State) (p : BusPhase) : (s.setPhase p).use24 = s.use24 := rfl
@[simp] theorem State.setPhase_mem (s : State) (p : BusPhase) : (s.setPhase p).mem = s.mem := rfl
@[simp] theorem State.setPhase_ptr (s : State) (p : BusPhase) : (s.setPhase p).ptr = s.ptr := rfl
@[simp] theorem State.setPhase_phase (s : State) (p : BusPhase) : (s.setPhase p).phase = p := rfl
@[simp] theorem State.setPhase_oracle (s : State) (p : BusPhase) : (s.setPhase p).oracle = s.oracle := rfl
@[simp] theorem State.setPhase_trace (s : State) (p : BusPhase) : (s.setPhase p).trace = s.trace := rfl
@[simp] theorem State.setPhase_input (s : State) (p : BusPhase) : (s.setPhase p).input = s.input := rfl
@[simp] theorem State.setPhase_responses (s : State) (p : BusPhase) : (s.setPhase p).responses = s.responses := rfl
@[simp] theorem State.setPhase_illegals (s : State) (p : BusPhase) : (s.setPhase p).illegals = s.illegals := rfl
@[simp] theorem State.setPhase_draws (s : State) (p : BusPhase) : (s.setPhase p).draws = s.draws := rfl
@[simp] theorem State.setPhase_params (s : State) (p : BusPhase) : (s.setPhase p).params = s.params := rfl

/-! ### State.popOracle -/

@[simp] theorem State.popOracle_pcb (s : State) : (s.popOracle).pcb = s.pcb := rfl
@[simp] theorem State.popOracle_acb (s : State) : (s.popOracle).acb = s.acb := rfl
@[simp] theorem State.popOracle_halted (s : State) : (s.popOracle).halted = s.halted := rfl
@[simp] theorem State.popOracle_use24 (s : State) : (s.popOracle).use24 = s.use24 := rfl
@[simp] theorem State.popOracle_mem (s : State) : (s.popOracle).mem = s.mem := rfl
@[simp] theorem State.popOracle_ptr (s : State) : (s.popOracle).ptr = s.ptr := rfl
@[simp] theorem State.popOracle_phase (s : State) : (s.popOracle).phase = s.phase := rfl
@[simp] theorem State.popOracle_oracle (s : State) : (s.popOracle).oracle = s.oracle.tail := rfl
@[simp] theorem State.popOracle_trace (s : State) : (s.popOracle).trace = s.trace := rfl
@[simp] theorem State.popOracle_input (s : State) : (s.popOracle).input = s.input := rfl
@[simp] theorem State.popOracle_responses (s : State) : (s.popOracle).responses = s.responses := rfl
@[simp] theorem State.popOracle_illegals (s : State) : (s.popOracle).illegals = s.illegals := rfl
@[simp] theorem State.popOracle_draws (s : State) : (s.popOracle).draws = s.draws := rfl
@[simp] theorem State.popOracle_params (s : State) : (s.popOracle).params = s.params := rfl

/-! ### State.emit -/

@[simp] theorem State.emit_pcb (s : State) (e : BusEvent) : (s.emit e).pcb = s.pcb := rfl
@[simp] theorem State.emit_acb (s : State) (e : BusEvent) : (s.emit e).acb = s.acb := rfl
@[simp] theorem State.emit_halted (s : State) (e : BusEvent) : (s.emit e).halted = s.halted := rfl
@[simp] theorem State.emit_use24 (s : State) (e : BusEvent) : (s.emit e).use24 = s.use24 := rfl
@[simp] theorem State.emit_mem (s : State) (e : BusEvent) : (s.emit e).mem = s.mem := rfl
@[simp] theorem State.emit_ptr (s : State) (e : BusEvent) : (s.emit e).ptr = s.ptr := rfl
@[simp] theorem State.emit_phase (s : State) (e : BusEvent) : (s.emit e).phase = s.phase := rfl
@[simp] theorem State.emit_oracle (s : State) (e : BusEvent) : (s.emit e).oracle = s.oracle := rfl
@[simp] theorem State.emit_trace (s : State) (e : BusEvent) : (s.emit e).trace = s.trace ++ [e] := rfl
@[simp] theorem State.emit_input (s : State) (e : BusEvent) : (s.emit e).input = s.input := rfl
@[simp] theorem State.emit_responses (s : State) (e : BusEvent) : (s.emit e).responses = s.responses := rfl
@[simp] theorem State.emit_illegals (s : State) (e : BusEvent) : (s.emit e).illegals = s.illegals := rfl
@[simp] theorem State.emit_draws (s : State) (e : BusEvent) : (s.emit e).draws = s.draws := rfl
@[simp] theorem State.emit_params (s : State) (e : BusEvent) : (s.emit e).params = s.params := rfl

/-! ### State.setInput -/

@[simp] theorem State.setInput_pcb (s : State) (r : List Byte) : (s.setInput r).pcb = s.pcb := rfl
@[simp] theorem State.setInput_acb (s : State) (r : List Byte) : (s.setInput r).acb = s.acb := rfl
@[simp] theorem State.setInput_halted (s : State) (r : List Byte) : (s.setInput r).halted = s.halted := rfl
@[simp] theorem State.setInput_use24 (s : State) (r : List Byte) : (s.setInput r).use24 = s.use24 := rfl
@[simp] theorem State.setInput_mem (s : State) (r : List Byte) : (s.setInput r).mem = s.mem := rfl
@[simp] theorem State.setInput_ptr (s : State) (r : List Byte) : (s.setInput r).ptr = s.ptr := rfl
@[simp] theorem State.setInput_phase (s : State) (r : List Byte) : (s.setInput r).phase = s.phase := rfl
@[simp] theorem State.setInput_oracle (s : State) (r : List Byte) : (s.setInput r).oracle = s.oracle := rfl
@[simp] theorem State.setInput_trace (s : State) (r : List Byte) : (s.setInput r).trace = s.trace := rfl
@[simp] theorem State.setInput_input (s : State) (r : List Byte) : (s.setInput r).input = r := rfl
@[simp] theorem State.setInput_responses (s : State) (r : List Byte) : (s.setInput r).responses = s.responses := rfl
@[simp] theorem State.setInput_illegals (s : State) (r : List Byte) : (s.setInput r).illegals = s.illegals := rfl
@[simp] theorem State.setInput_draws (s : State) (r : List Byte) : (s.setInput r).draws = s.draws := rfl
@[simp] theorem State.setInput_params (s : State) (r : List Byte) : (s.setInput r).params = s.params := rfl

/-! ### State.respond -/

@[simp] theorem State.respond_pcb (s : State) (st : Byte) (p : List Byte) : (s.respond st p).pcb = s.pcb := rfl
@[simp] theorem State.respond_acb (s : State) (st : Byte) (p : List Byte) : (s.respond st p).acb = s.acb := rfl
@[simp] theorem State.respond_halted (s : State) (st : Byte) (p : List Byte) : (s.respond st p).halted = s.halted := rfl
@[simp] theorem State.respond_use24 (s : State) (st : Byte) (p : List Byte) : (s.respond st p).use24 = s.use24 := rfl
@[simp] theorem State.respond_mem (s : State) (st : Byte) (p : List Byte) : (s.respond st p).mem = s.mem := rfl
@[simp] theorem State.respond_ptr (s : State) (st : Byte) (p : List Byte) : (s.respond st p).ptr = s.ptr := rfl
@[simp] theorem State.respond_phase (s : State) (st : Byte) (p : List Byte) : (s.respond st p).phase = s.phase := rfl
@[simp] theorem State.respond_oracle (s : State) (st : Byte) (p : List Byte) : (s.respond st p).oracle = s.oracle := rfl
@[simp] theorem State.respond_trace (s : State) (st : Byte) (p : List Byte) : (s.respond st p).trace = s.trace := rfl
@[simp] theorem State.respond_input (s : State) (st : Byte) (p : List Byte) : (s.respond st p).input = s.input := rfl
@[simp] theorem State.respond_responses (s : State) (st : Byte) (p : List Byte) : (s.respond st p).responses = s.responses ++ st :: p := rfl
@[simp] theorem State.respond_illegals (s : State) (st : Byte) (p : List Byte) : (s.respond st p).illegals = s.illegals := rfl
@[simp] theorem State.respond_draws (s : State) (st : Byte) (p : List Byte) : (s.respond st p).draws = s.draws := rfl
@[simp] theorem State.respond_params (s : State) (st : Byte) (p : List Byte) : (s.respond st p).params = s.params := rfl

/-! ### State.countIllegal -/

@[simp] theorem State.countIllegal_pcb (s : State) : (s.countIllegal).pcb = s.pcb := rfl
@[simp] theorem State.countIllegal_acb (s : State) : (s.countIllegal).acb = s.acb := rfl
@[simp] theorem State.countIllegal_halted (s : State) : (s.countIllegal).halted = s.halted := rfl
@[simp] theorem State.countIllegal_use24 (s : State) : (s.countIllegal).use24 = s.use24 := rfl
@[simp] theorem State.countIllegal_mem (s : State) : (s.countIllegal).mem = s.mem := rfl
@[simp] theorem State.countIllegal_ptr (s : State) : (s.countIllegal).ptr = s.ptr := rfl
@[simp] theorem State.countIllegal_phase (s : State) : (s.countIllegal).phase = s.phase := rfl
@[simp] theorem State.countIllegal_oracle (s : State) : (s.countIllegal).oracle = s.oracle := rfl
@[simp] theorem State.countIllegal_trace (s : State) : (s.countIllegal).trace = s.trace := rfl
@[simp] theorem State.countIllegal_input (s : State) : (s.countIllegal).input = s.input := rfl
@[simp] theorem State.countIllegal_responses (s : State) : (s.countIllegal).responses = s.responses := rfl
@[simp] theorem State.countIllegal_illegals (s : State) : (s.countIllegal).illegals = s.illegals + 1 := rfl
@[simp] theorem State.countIllegal_draws (s : State) : (s.countIllegal).draws = s.draws := rfl
@[simp] theorem State.countIllegal_params (s : State) : (s.countIllegal).params = s.params := rfl

/-! ### State.advanceDraws -/

@[simp] theorem State.advanceDraws_pcb (s : State) (n : Nat) : (s.advanceDraws n).pcb = s.pcb := rfl
@[simp] theorem State.advanceDraws_acb (s : State) (n : Nat) : (s.advanceDraws n).acb = s.acb := rfl
@[simp] theorem State.advanceDraws_halted (s : State) (n : Nat) : (s.advanceDraws n).halted = s.halted := rfl
@[simp] theorem State.advanceDraws_use24 (s : State) (n : Nat) : (s.advanceDraws n).use24 = s.use24 := rfl
@[simp] theorem State.advanceDraws_mem (s : State) (n : Nat) : (s.advanceDraws n).mem = s.mem := rfl
@[simp] theorem State.advanceDraws_ptr (s : State) (n : Nat) : (s.advanceDraws n).ptr = s.ptr := rfl
@[simp] theorem State.advanceDraws_phase (s : State) (n : Nat) : (s.advanceDraws n).phase = s.phase := rfl
@[simp] theorem State.advanceDraws_oracle (s : State) (n : Nat) : (s.advanceDraws n).oracle = s.oracle := rfl
@[simp] theorem State.advanceDraws_trace (s : State) (n : Nat) : (s.advanceDraws n).trace = s.trace := rfl
@[simp] theorem State.advanceDraws_input (s : State) (n : Nat) : (s.advanceDraws n).input = s.input := rfl
@[simp] theorem State.advanceDraws_responses (s : State) (n : Nat) : (s.advanceDraws n).responses = s.responses := rfl
@[simp] theorem State.advanceDraws_illegals (s : State) (n : Nat) : (s.advanceDraws n).illegals = s.illegals := rfl
@[simp] theorem State.advanceDraws_draws (s : State) (n : Nat) : (s.advanceDraws n).draws = s.draws + n := rfl
@[simp] theorem State.advanceDraws_params (s : State) (n : Nat) : (s.advanceDraws n).params = s.params := rfl

end Sys2Proof.Machine
end

