-- ==== Sys2Proof/Laws/Ops.lean ====
section
/-! SUPPORT. One lemma for each shared operation: what a transaction does to the whole state, in the words of
Safety.lean, and what a draw and a response do. -/

namespace Sys2Proof.Machine

/-! ### Draws -/

@[simp] theorem fillDraws_length (bs : List (Option Byte)) (n : Nat) : (fillDraws bs n).length = bs.length := by
  induction bs generalizing n with
  | nil => rfl
  | cons b bs ih => cases b <;> simp [fillDraws, ih]

/-- A byte the spec gives is not changed by the draw of the others. -/
theorem fillDraws_some {bs : List (Option Byte)} {k : Nat} {b : Byte} (h : bs[k]? = some (some b)) (n : Nat) :
    (fillDraws bs n)[k]? = some b := by
  induction bs generalizing n k with
  | nil => simp at h
  | cons c bs ih =>
    cases k with
    | zero =>
      simp only [List.getElem?_cons_zero, Option.some.injEq] at h
      subst h
      rfl
    | succ k =>
      simp only [List.getElem?_cons_succ] at h
      cases c <;> simp [fillDraws, ih h]

/-- A byte the spec leaves unspecified is a free value of this draw. -/
theorem fillDraws_none {bs : List (Option Byte)} {k : Nat} (h : bs[k]? = some none) (n : Nat) :
    ∃ m, n ≤ m ∧ m < n + unspecifiedCount bs ∧ (fillDraws bs n)[k]? = some (Config.unspecified8 m) := by
  induction bs generalizing n k with
  | nil => simp at h
  | cons c bs ih =>
    cases k with
    | zero =>
      simp only [List.getElem?_cons_zero, Option.some.injEq] at h
      subst h
      exact ⟨n, Nat.le_refl n, by simp [unspecifiedCount], rfl⟩
    | succ k =>
      simp only [List.getElem?_cons_succ] at h
      cases c with
      | none =>
        obtain ⟨m, h1, h2, h3⟩ := ih h (n + 1)
        refine ⟨m, by omega, ?_, by simpa [fillDraws] using h3⟩
        simp only [unspecifiedCount, List.countP_cons, Option.isNone_none, if_true] at h2 ⊢
        omega
      | some b =>
        obtain ⟨m, h1, h2, h3⟩ := ih h n
        exact ⟨m, h1, by simpa [unspecifiedCount] using h2, by simpa [fillDraws] using h3⟩

/-- Where the spec gives every byte, nothing is drawn. -/
theorem fillDraws_map_some (bs : List Byte) (n : Nat) : fillDraws (bs.map some) n = bs := by
  induction bs generalizing n with
  | nil => rfl
  | cons b bs ih => simp [fillDraws, ih]

theorem State.draw_map_some (s : State) (bs : List Byte) : s.draw (bs.map some) = (bs, s) := by
  have h : unspecifiedCount (bs.map some) = 0 := by simp [unspecifiedCount]
  unfold State.draw
  rw [fillDraws_map_some, h]
  rfl

/-! ### Reads -/

/-- `PtrSet(a)`. -/
theorem State.ptrSet_eq (s : State) (a : Byte) :
    s.ptrSet a = { s with ptr := a.setWidth 6, phase := .idle, trace := s.trace ++ ptrSetEvents a } := by
  simp [State.ptrSet, State.busBegin, State.busWrite, State.busEnd, State.emit, State.setPhase, State.setPtr,
    ptrSetEvents]

theorem State.nextPtr_eq (s : State) :
    s.nextPtr = if s.ptr.toNat + 1 < 64 then BitVec.ofNat 6 (s.ptr.toNat + 1) else s.params.ptrWrap := by
  unfold State.nextPtr
  have h63 : s.ptr = 0x3F ↔ ¬ s.ptr.toNat + 1 < 64 := by
    rw [← BitVec.toNat_inj]
    have := s.ptr.isLt
    simp
    omega
  split
  · rename_i h
    rw [if_neg (h63.mp h)]
  · rename_i h
    rw [if_pos (by by_contra hc; exact h (h63.mpr hc))]
    apply BitVec.eq_of_toNat_eq
    simp

/-- `n` reads from the pointer on, all inside the address space. -/
theorem State.busReads_eq (n : Nat) (s : State) (h : s.ptr.toNat + n ≤ 64) :
    State.busReads n s =
      ((List.range n).map (fun i => s.oracle.getD i (Mem.read s.mem (s.ptr.toNat + i))),
        { s with
          ptr := if s.ptr.toNat + n < 64 then BitVec.ofNat 6 (s.ptr.toNat + n) else s.params.ptrWrap
          oracle := s.oracle.drop n
          trace := s.trace ++
            ((List.range n).map (fun i => s.oracle.getD i (Mem.read s.mem (s.ptr.toNat + i)))).map .read }) := by
  induction n generalizing s with
  | zero =>
    have : s.ptr.toNat < 64 := s.ptr.isLt
    simp [State.busReads, this]
  | succ n ih =>
    simp only [State.busReads]
    by_cases hn : n = 0
    · subst hn
      simp [State.busReads, State.busRead, State.chipByte, State.nextPtr_eq, State.emit, State.setPtr,
        State.popOracle]
      cases s.oracle <;> simp
    · have hp : s.busRead.2.ptr.toNat = s.ptr.toNat + 1 := by
        simp only [State.busRead, State.popOracle_ptr, State.setPtr_ptr, State.nextPtr_eq]
        rw [if_pos (by omega), BitVec.toNat_ofNat, Nat.mod_eq_of_lt (by omega)]
      rw [ih _ (by omega), hp, List.range_succ_eq_map]
      cases ho : s.oracle with
      | nil =>
        simp [State.busRead, State.chipByte, State.emit, State.setPtr, State.popOracle, ho, Function.comp_def,
          Nat.add_assoc, Nat.add_comm 1]
      | cons b bs =>
        simp [State.busRead, State.chipByte, State.emit, State.setPtr, State.popOracle, ho, Function.comp_def,
          Nat.add_assoc, Nat.add_comm 1]

theorem toNat_setWidth_addr {a : Byte} (h : a.toNat < 64) : (a.setWidth 6 : ChipAddr).toNat = a.toNat := by
  rw [BitVec.toNat_setWidth, Nat.mod_eq_of_lt (by omega)]

@[simp] theorem State.answers_length (s : State) (a : Byte) (n : Nat) : (s.answers a n).length = n := by
  simp [State.answers]

/-- `MemRead(a, n)` inside the address space: the bytes it returns and all it does (20_memory.md R45). -/
theorem State.memRead_eq (s : State) {a : Byte} {n : Nat} (ha : a.toNat < 64) (h : a.toNat + n ≤ 64) :
    s.memRead a n = (s.answers a n, s.afterRead a n) := by
  have hp : (a.setWidth 6 : ChipAddr).toNat = a.toNat := toNat_setWidth_addr ha
  unfold State.memRead
  rw [State.ptrSet_eq, State.busReads_eq]
  · simp only [State.busRequest, State.emit, hp]
    simp [State.answers, State.answer, State.afterRead, State.ptrAfter, readEvents, Function.comp_def]
  · simp only [State.busRequest, State.emit, hp]
    exact h

/-- `RdReg(a)` inside the address space (44_scratch_memory.md R180). -/
theorem State.rdReg_eq (s : State) {a : Byte} (ha : a.toNat < 64) :
    s.rdReg a = (s.answer a 0, s.afterRead a 1) := by
  unfold State.rdReg
  rw [State.memRead_eq s ha (by omega)]
  rfl

/-! ### Writes -/

/-- Data bytes from the pointer on, all inside the address space. -/
theorem State.busWrites_eq (bs : List Byte) (s : State) (hd : s.phase = .data) (h : s.ptr.toNat + bs.length ≤ 64) :
    State.busWrites bs s =
      { s with
        mem := Mem.writeList s.mem s.ptr.toNat bs
        ptr := if s.ptr.toNat + bs.length < 64 then BitVec.ofNat 6 (s.ptr.toNat + bs.length) else s.params.ptrWrap
        trace := s.trace ++ bs.map .write } := by
  induction bs generalizing s with
  | nil =>
    have : s.ptr.toNat < 64 := s.ptr.isLt
    simp [State.busWrites, Mem.writeList, this]
  | cons b bs ih =>
    simp only [List.length_cons] at h
    have hb : s.busWrite b =
        { s with
          mem := Mem.write s.mem s.ptr.toNat b
          ptr := s.nextPtr
          trace := s.trace ++ [.write b] } := by
      unfold State.busWrite
      split
      · simp_all
      · rfl
      · simp_all
    simp only [State.busWrites, hb]
    by_cases hn : bs.length = 0
    · obtain rfl := List.eq_nil_of_length_eq_zero hn
      simp [State.busWrites, State.nextPtr_eq, Mem.writeList]
    · have hp : s.nextPtr.toNat = s.ptr.toNat + 1 := by
        rw [State.nextPtr_eq, if_pos (by omega), BitVec.toNat_ofNat, Nat.mod_eq_of_lt (by omega)]
      rw [ih]
      · simp only [hp, Mem.writeList, List.map_cons, List.length_cons, List.append_assoc, List.cons_append,
          List.nil_append, Nat.add_assoc, Nat.add_comm 1]
      · exact hd
      · show s.nextPtr.toNat + bs.length ≤ 64
        omega

/-- `MemWrite(a, n, v)` inside the address space (20_memory.md R46). -/
theorem State.memWrite_eq (s : State) {a : Byte} {v : List Byte} (ha : a.toNat < 64) (h : a.toNat + v.length ≤ 64) :
    s.memWrite a v = s.afterWrite a v := by
  have hp : (a.setWidth 6 : ChipAddr).toNat = a.toNat := toNat_setWidth_addr ha
  have hb : (s.busBegin).busWrite a =
      { s with
        ptr := a.setWidth 6
        phase := .data
        trace := s.trace ++ [.begin Config.deviceAddr, .write a] } := by
    simp [State.busBegin, State.busWrite, State.emit, State.setPhase, State.setPtr]
  unfold State.memWrite
  rw [hb, State.busWrites_eq _ _ rfl (by simpa only [hp] using h)]
  simp [State.busEnd, State.emit, State.setPhase, State.afterWrite, State.ptrAfter, writeEvents, hp]

end Sys2Proof.Machine
end

