-- ==== Sys2Proof/Laws/Operands.lean ====
section
/-! SUPPORT. One lemma for each shared computation: the segments of a block request, and what a block read, a block
write and a commit do to the whole state. -/

namespace Sys2Proof.Machine

/-! ### Segments and block transfers -/

theorem segmentsFrom_zero (fuel pos : Nat) : segmentsFrom fuel pos 0 = [] := by
  cases fuel <;> simp [segmentsFrom]

/-- The segments of a request in range: none, one, or one of 32 bytes and the rest (44_scratch_memory.md R189). -/
theorem segments_eq {o n : Nat} (h : o + n ≤ 56) :
    segments o n = if n = 0 then [] else if n ≤ 32 then [(o, n)] else [(o, 32), (o + 32, n - 32)] := by
  have hlen : ∀ pos rem, pos + rem ≤ 56 → 0 < rem → segmentLength pos rem = min rem 32 := by
    intro pos rem hp hr
    unfold segmentLength
    exact if_neg (by simp only [Config.userBase, Config.maxBlock, Config.lastAddr]; omega)
  unfold segments
  cases n with
  | zero => rfl
  | succ k =>
    simp only [segmentsFrom]
    rw [if_neg (by omega), if_neg (by omega), hlen o (k + 1) h (by omega)]
    by_cases hk : k + 1 ≤ 32
    · rw [if_pos hk, Nat.min_eq_left hk, Nat.sub_self, segmentsFrom_zero]
    · rw [if_neg hk, Nat.min_eq_right (by omega)]
      obtain ⟨j, rfl⟩ : ∃ j, k = j + 1 := ⟨k - 1, by omega⟩
      have h2 := hlen (o + 32) (j + 1 + 1 - 32) (by omega) (by omega)
      rw [Nat.min_eq_left (by omega)] at h2
      simp only [segmentsFrom]
      rw [if_neg (by omega), h2, Nat.sub_self, segmentsFrom_zero]

theorem userAddr_toNat {o : Nat} (h : o < 248) : (userAddr o).toNat = 8 + o := by
  simp only [userAddr, Config.userBase, BitVec.toNat_ofNat]
  omega

/-- The chip address of an offset operand, as bytes. -/
theorem userAddr_toByte (o : Byte) : userAddr o.toNat = 8 + o := by
  apply BitVec.eq_of_toNat_eq
  simp [userAddr]

/-- The chip address of the second segment, as bytes. -/
theorem userAddr_toByte_second (o : Byte) : userAddr (o.toNat + 32) = 8 + o + 32 := by
  apply BitVec.eq_of_toNat_eq
  simp [userAddr, Config.userBase]
  omega

/-- The range check as an inequality (44_scratch_memory.md R186). -/
@[simp] theorem inRange_iff {o extent : Nat} : inRange o extent = true ↔ o + extent ≤ 56 := by
  simp [inRange]

/-- The chip address of a scratch offset in range. -/
theorem userAddr_lt {o : Nat} (h : o < 56) : (userAddr o).toNat < 64 := by
  rw [userAddr_toNat (by omega)]; omega

/-- A block read in range, in one or two transactions; none for zero bytes (44_scratch_memory.md R190). -/
theorem readSegments_eq {o n : Nat} (h : o + n ≤ 56) (s : State) :
    readSegments (segments o n) s =
      if n = 0 then ([], s)
      else if n ≤ 32 then (s.answers (userAddr o) n, s.afterRead (userAddr o) n)
      else (s.answers (userAddr o) 32 ++ (s.afterRead (userAddr o) 32).answers (userAddr (o + 32)) (n - 32),
        (s.afterRead (userAddr o) 32).afterRead (userAddr (o + 32)) (n - 32)) := by
  rw [segments_eq h]
  by_cases h0 : n = 0
  · simp [h0, readSegments]
  have ha := userAddr_toNat (o := o) (by omega)
  by_cases h1 : n ≤ 32
  · simp [h0, h1, readSegments, State.memRead_eq s (a := userAddr o) (n := n) (by omega) (by omega)]
  · have hb := userAddr_toNat (o := o + 32) (by omega)
    simp [h0, h1, readSegments, State.memRead_eq s (a := userAddr o) (n := 32) (by omega) (by omega),
      State.memRead_eq (s.afterRead (userAddr o) 32) (a := userAddr (o + 32)) (n := n - 32) (by omega) (by omega)]

/-- The bytes of a block read in range, whatever its segments: byte `i` is what a read at offset `o + i` returns once
`i` answers are used up. -/
theorem readSegments_bytes {o n : Nat} (h : o + n ≤ 56) (s : State) :
    (readSegments (segments o n) s).1 = s.answers (userAddr o) n := by
  rw [readSegments_eq h]
  by_cases h0 : n = 0
  · simp [h0, State.answers]
  by_cases h1 : n ≤ 32
  · simp [h0, h1]
  · have ha := userAddr_toNat (o := o) (by omega)
    have hb := userAddr_toNat (o := o + 32) (by omega)
    simp only [h0, h1, if_false]
    apply List.ext_getElem
    · simp; omega
    · intro i hi hj
      rw [List.getElem_append]
      simp only [State.answers, List.getElem_map, List.getElem_range, List.length_map,
        List.length_range]
      split
      · rfl
      · simp only [State.answer, State.afterRead, ha, hb, List.getD_eq_getElem?_getD, List.getElem?_drop]
        rw [show 32 + (i - 32) = i by omega, show 8 + (o + 32) + (i - 32) = 8 + o + i by omega]

/-- A block write in range, in one or two transactions; none for zero bytes (44_scratch_memory.md R191). -/
theorem writeSegments_eq {o : Nat} {data : List Byte} (h : o + data.length ≤ 56) (s : State) :
    writeSegments (segments o data.length) data s =
      if data.length = 0 then s
      else if data.length ≤ 32 then s.afterWrite (userAddr o) data
      else (s.afterWrite (userAddr o) (data.take 32)).afterWrite (userAddr (o + 32)) (data.drop 32) := by
  rw [segments_eq h]
  by_cases h0 : data.length = 0
  · simp [h0, writeSegments]
  have ha := userAddr_toNat (o := o) (by omega)
  by_cases h1 : data.length ≤ 32
  · have ht : data.take data.length = data := List.take_length
    simp only [h0, h1, if_true, if_false, writeSegments, ht]
    exact State.memWrite_eq s (by omega) (by omega)
  · have hb := userAddr_toNat (o := o + 32) (by omega)
    have ht : (data.take 32).length = 32 := by simp; omega
    have hd : (data.drop 32).take (data.length - 32) = data.drop 32 :=
      List.take_of_length_le (by simp)
    simp only [h0, h1, if_false, writeSegments, hd]
    rw [State.memWrite_eq s (by omega) (by omega), State.memWrite_eq _ (by omega) (by simp; omega)]

/-! ### The time read -/

/-- A 12-hour hour is given exactly when its low five bits are BCD and decode to 1 to 12. -/
theorem hour12Of_eq_some {r h : Byte} :
    hour12Of r = some h ↔ ofBcd (r &&& 0x1F) = some h ∧ 1 ≤ h.toNat ∧ h.toNat ≤ 12 := by
  simp [hour12Of, Option.filter_eq_some_iff]

/-! ### The commit -/

theorem writeFrame_length (t : TimeArgs) (pm h f : Bool) (p : Byte) : (writeFrame t pm h f p).length = 8 := rfl

/-- A commit: the frame drawn, one write transaction at 0x00, `ACB <- PCB` (42_time_commit.md R146, R148). -/
theorem State.commitFrame_eq (s : State) (t : TimeArgs) (pm : Bool) :
    s.commitFrame t pm =
      { s.afterWrite Config.clockBase (fillDraws (writeFrame t pm s.halted s.use24 s.pcb) s.draws) with
        acb := s.pcb
        draws := s.draws + unspecifiedCount (writeFrame t pm s.halted s.use24 s.pcb) } := by
  simp only [State.commitFrame, State.draw]
  rw [State.memWrite_eq]
  · rfl
  · decide
  · rw [fillDraws_length, writeFrame_length]; decide

end Sys2Proof.Machine
end

