-- ==== Sys2Proof/Laws/PerInstr.lean ====
section
/-! SUPPORT. Statements for all instructions, one lemma a constructor. The family EncodedLength: the length of a
command is known from its first byte, for MWRB from its third (spec 30_encoding.md R78). -/

namespace Sys2Proof.Laws.EncodedLength

/-- A well-formed command is as long as its own first bytes say. -/
def Statement (i : Instr) : Prop := i.wf = true → (encode i).length = commandLength (encode i)

theorem setHalt (b : Bool) : Statement (.setHalt b) := fun _ => rfl
theorem set24h (b : Bool) : Statement (.set24h b) := fun _ => rfl
theorem sqwEn (b : Bool) : Statement (.sqwEn b) := fun _ => rfl
theorem sqwFreq (f : Freq) : Statement (.sqwFreq f) := fun _ => rfl
theorem sqwPol (p : Bool) : Statement (.sqwPol p) := fun _ => rfl
theorem qHalt : Statement .qHalt := fun _ => rfl
theorem q24h : Statement .q24h := fun _ => rfl
theorem qSqwEn : Statement .qSqwEn := fun _ => rfl
theorem qSqwFreq : Statement .qSqwFreq := fun _ => rfl
theorem qSqwPol : Statement .qSqwPol := fun _ => rfl
theorem sync : Statement .sync := fun _ => rfl
theorem commit (t : TimeArgs) (pm : Bool) : Statement (.commit t pm) := fun _ => rfl
theorem commit24 (t : TimeArgs) : Statement (.commit24 t) := fun _ => rfl
theorem rdTime : Statement .rdTime := fun _ => rfl
theorem rdReg (a : ChipAddr) : Statement (.rdReg a) := fun _ => rfl
theorem mrd1 (o : Byte) : Statement (.mrd1 o) := fun _ => rfl
theorem mrdb (o n : Byte) : Statement (.mrdb o n) := fun _ => rfl
theorem mwr1 (o d : Byte) : Statement (.mwr1 o d) := fun _ => rfl
theorem mwrb (o : Byte) (data : List Byte) : Statement (.mwrb o data) := by
  intro h
  have hl : data.length ≤ 255 := of_decide_eq_true h
  show data.length + 3 = 3 + (BitVec.ofNat 8 data.length).toNat
  rw [BitVec.toNat_ofNat, Nat.mod_eq_of_lt (by omega)]
  omega
theorem d2b (v : Byte) : Statement (.d2b v) := fun _ => rfl
theorem b2d (b : Byte) : Statement (.b2d b) := fun _ => rfl

end Sys2Proof.Laws.EncodedLength
end

