-- ==== Sys2Proof/Tests/Slice0.lean ====
section
/-! SUPPORT. Tests of the model. Expected values come from spec 30_encoding.md (words written out bit by bit from the
formats and the opcode map) and 95_test_vectors.md (the vector's number stands at each test); the tests named
`witness_…` show values that meet the hypotheses of a statement. -/

namespace Sys2Proof.Tests

open Sys2Proof.Machine

/-! ### Small states and projections -/

/-- The reset state with these bytes on the command port. -/
def port (bs : List Byte) : State := State.reset.setInput bs

/-- The reset state with these four fields. -/
def fields (pcb acb : Byte) (halted use24 : Bool) : State :=
  State.resetWith pcb acb halted use24 ⟨[], 0, []⟩ Params.default

/-- The reset state of a chip whose time frame holds these bytes. -/
def clock (frame : List Byte) : State :=
  State.resetWith 0x55 0xAA true false ⟨Mem.writeList [] 0 frame, 0, []⟩ Params.default

/-- One projection of the next state. -/
def see {α : Type} (o : Host.Outcome State Fault Refusal) (f : State → α) : Option α :=
  match o with
  | .next t => some (f t)
  | .fault _ => none
  | .refused _ => none

/-- The four fields of a state. -/
def four (s : State) : Byte × Byte × Bool × Bool := (s.pcb, s.acb, s.halted, s.use24)

/-! ### Well-formedness: the one check, met at its bound and refused above it -/

/-- Any 255 data bytes, and any 256. -/
theorem test_wf_mwrb_bound (data : List Byte) :
    (data.length = 255 → (Instr.mwrb 0 data).wf = true) ∧ (data.length = 256 → (Instr.mwrb 0 data).wf = false) := by
  constructor <;> intro h <;> simp [Instr.wf, Instr.maxData, h]

/-- The ill-formed term: 256 data bytes. -/
theorem test_wf_mwrb_too_long_refused : (Instr.mwrb 0 (List.replicate 256 0xA5)).wf = false :=
  (test_wf_mwrb_bound _).2 List.length_replicate

/-! ### Decoding: words written out bit by bit (30_encoding.md R71, R75) -/

theorem test_decode_sethalt : decode [0b00010000, 0b00000001] = .command (.setHalt true) [] := by decide
theorem test_decode_set24h : decode [0b00010001, 0b00000000] = .command (.set24h false) [] := by decide
theorem test_decode_sqwen : decode [0b00010010, 0b00000001] = .command (.sqwEn true) [] := by decide
theorem test_decode_sqwfreq : decode [0b00010011, 0b00000010] = .command (.sqwFreq .f8khz) [] := by decide
theorem test_decode_sqwpol : decode [0b00010100, 0b00000001] = .command (.sqwPol true) [] := by decide
theorem test_decode_qhalt : decode [0b00011000] = .command .qHalt [] := by decide
theorem test_decode_q24h : decode [0b00011001] = .command .q24h [] := by decide
theorem test_decode_qsqwen : decode [0b00011010] = .command .qSqwEn [] := by decide
theorem test_decode_qsqwfreq : decode [0b00011011] = .command .qSqwFreq [] := by decide
theorem test_decode_qsqwpol : decode [0b00011100] = .command .qSqwPol [] := by decide
theorem test_decode_begin : decode [0b00011111] = .command .sync [] := by decide
theorem test_decode_commit :
    decode [0b00100000, 0b00000001, 0b00000010, 0b00000011, 0b00000100, 0b00000101, 0b00000110, 0b00000111, 0b00000001] =
      .command (.commit ⟨1, 2, 3, 4, 5, 6, 7⟩ true) [] := by decide
theorem test_decode_commit24 :
    decode [0b00100001, 0b00000001, 0b00000010, 0b00000011, 0b00000100, 0b00000101, 0b00000110, 0b00000111] =
      .command (.commit24 ⟨1, 2, 3, 4, 5, 6, 7⟩) [] := by decide
theorem test_decode_rdtime : decode [0b00110000] = .command .rdTime [] := by decide
theorem test_decode_rdreg : decode [0b01000000, 0b00111110] = .command (.rdReg 0b111110) [] := by decide
theorem test_decode_mrd1 : decode [0b01000001, 0b11111111] = .command (.mrd1 255) [] := by decide
theorem test_decode_mrdb : decode [0b01000010, 0b00011110, 0b00001100] = .command (.mrdb 30 12) [] := by decide
theorem test_decode_mwr1 : decode [0b01000011, 0b00110111, 0b01011010] = .command (.mwr1 55 0x5A) [] := by decide
theorem test_decode_mwrb :
    decode [0b01000100, 0b00110110, 0b00000010, 0b11101110, 0b11111111, 0b00011010] =
      .command (.mwrb 54 [0xEE, 0xFF]) [0x1A] := by decide
theorem test_decode_d2b : decode [0b01010000, 0b00111011] = .command (.d2b 59) [] := by decide
theorem test_decode_b2d : decode [0b01010001, 0b01011001] = .command (.b2d 0x59) [] := by decide

/-- Illegal encodings: vectors I1, I2, I3, I4, I8, I9. -/
theorem test_decode_illegal :
    decode [0x00] = .illegal (.unknownOpcode 0x00) [] ∧
    decode [0x15, 0x01] = .illegal (.unknownOpcode 0x15) [0x01] ∧
    decode [0x52] = .illegal (.unknownOpcode 0x52) [] ∧
    decode [0x10, 0x02, 0x18] = .illegal (.badOperand .setHalt) [0x18] ∧
    decode [0x13, 0x04] = .illegal (.badOperand .sqwFreq) [] ∧
    decode [0x40, 0x40] = .illegal (.badOperand .rdReg) [] := by decide

/-- Truncated commands: vectors I14 and I15. -/
theorem test_decode_incomplete :
    decode [0x20, 0x00, 0x00] = .incomplete ∧ decode [0x44, 0x00, 0x05, 0x01, 0x02] = .incomplete := by decide

/-- Words as the opcode table numbers them, first byte most significant (30_encoding.md R70). -/
theorem test_table_words :
    decodeTableWord 16 0x1001 = some (.setHalt true) ∧
    decodeTableWord 16 0x1303 = some (.sqwFreq .f32khz) ∧
    decodeTableWord 8 0x1F = some .sync ∧
    decodeTableWord 72 0x201E2D12030F061801 = some (.commit ⟨30, 45, 18, 3, 15, 6, 24⟩ true) ∧
    decodeTableWord 24 0x421E0C = some (.mrdb 30 12) ∧
    decodeTableWord 8 0x44 = some (.mwrb 0 []) ∧
    decodeTableWord 16 0x1002 = none := by decide

/-- A table word placed at the command port runs as the first command after reset. -/
theorem test_fetch_word : see (step (State.reset.withFetchWord 16 0x1001)) four = some (0, 0, true, false) := by decide

/-! ### Setters (vectors of section 2.1) -/

theorem test_sethalt_s1 : see (exec (.setHalt true) (fields 0x00 0xAA false false)) four = some (0x00, 0xAA, true, false) := by
  decide
theorem test_set24h_s5 : see (exec (.set24h false) (fields 0x00 0xAA false true)) four = some (0x00, 0xAA, false, false) := by
  decide
theorem test_sqwen_s9 : see (exec (.sqwEn false) (fields 0xFF 0x00 false false)) State.pcb = some 0xEF := by decide
theorem test_sqwen_s10 : see (exec (.sqwEn true) (fields 0x6C 0x00 false false)) State.pcb = some 0x7C := by decide
theorem test_sqwfreq_s15 : see (exec (.sqwFreq .f8khz) (fields 0x93 0x00 false false)) State.pcb = some 0x92 := by decide
theorem test_sqwfreq_s16 : see (exec (.sqwFreq .f4khz) (fields 0x02 0x00 false false)) State.pcb = some 0x01 := by decide
theorem test_sqwpol_s19 : see (exec (.sqwPol true) (fields 0xFF 0x00 false false)) State.pcb = some 0x7F := by decide
theorem test_sqwpol_s21 : see (exec (.sqwPol false) (fields 0x13 0x00 false false)) State.pcb = some 0x93 := by decide

/-! ### Queries and BEGIN (vectors of sections 2.2 to 2.4) -/

theorem test_qsqwen_q8 : see (exec .qSqwEn (fields 0x81 0x12 false false)) State.responses = some [0x00, 0x01] := by decide
theorem test_qsqwfreq_q9 : see (exec .qSqwFreq (fields 0x02 0x01 false false)) State.responses = some [0x00, 0x01] := by
  decide
theorem test_qsqwpol_q4 : see (exec .qSqwPol (fields 0x00 0x80 false false)) State.responses = some [0x00, 0x00] := by
  decide
/-- T3 and T4: the answer is one bit of the chip's byte. -/
theorem test_qhalt_t3_t4 :
    see (exec .qHalt (clock [0x7F])) State.responses = some [0x00, 0x00] ∧
    see (exec .qHalt (clock [0xD9])) State.trace =
      some [.begin 0x68, .write 0x00, .stop, .request 0x68 1, .read 0xD9] := by decide
theorem test_q24h_t3_t4 :
    see (exec .q24h (clock [0x7F, 0, 0xBF])) State.responses = some [0x00, 0x01] ∧
    see (exec .q24h (clock [0xD9, 0, 0x72])) State.responses = some [0x00, 0x00] := by decide
theorem test_begin_b5 :
    see (exec .sync (clock [0x85, 0, 0x52, 0, 0, 0, 0, 0x13])) four = some (0x13, 0x13, true, false) := by decide
/-- The chip's own answers, one for each `BusRead`, in the order control, seconds, hours. -/
theorem test_begin_answers :
    see (exec .sync { State.reset with oracle := [0x6C, 0x80, 0x23] }) four = some (0x6C, 0x6C, true, true) := by decide

/-! ### Commit and time read (vectors of sections 2.5 and 2.6) -/

theorem test_commit_c11_clamp :
    see (exec (.commit ⟨0, 0, 18, 1, 1, 1, 0⟩ false) (fields 0x00 0xFF false false)) State.mem =
      some [(2, 0x66), (3, 0x01), (4, 0x01), (5, 0x01)] := by decide
theorem test_commit_c12_events :
    see (exec (.commit ⟨7, 8, 9, 2, 9, 10, 5⟩ true) (fields 0x6C 0x00 true false)) (fun t => (t.trace, t.acb)) =
      some ([.begin 0x68, .write 0x00, .write 0x87, .write 0x08, .write 0x69, .write 0x02, .write 0x09, .write 0x10,
        .write 0x05, .write 0x6C, .stop], 0x6C) := by decide
theorem test_commit24_c13 :
    see (exec (.commit24 ⟨30, 45, 18, 3, 15, 6, 24⟩) (fields 0x80 0x13 false false)) (fun t => (t.mem, four t)) =
      some ([(0, 0x30), (1, 0x45), (2, 0x18), (3, 0x03), (4, 0x15), (5, 0x06), (6, 0x24), (7, 0x80)],
        0x80, 0x80, false, true) := by decide
theorem test_rdtime_d4 :
    see (exec .rdTime (clock [0x30, 0x45, 0x66, 0x03, 0x15, 0x06, 0x24, 0x10])) (fun t => (t.responses, four t)) =
      some ([0x00, 0x1E, 0x2D, 0x06, 0x03, 0x0F, 0x06, 0x18, 0x02], 0x55, 0x10, true, false) := by decide
/-- D9; and, by row U9 of 93_implementation_defined.md, one unspecified byte for the 12-hour hours bytes 0x60 and 0x53,
none for 0x52 (vector D5). -/
theorem test_rdtime_d9_u9 :
    see (exec .rdTime (clock [0x80, 0x00, 0x92, 0x01, 0x01, 0x01, 0x00, 0xFF])) State.responses =
      some [0x00, 0x00, 0x00, 0x0C, 0x01, 0x01, 0x01, 0x00, 0x01] ∧
    see (exec .rdTime (clock [0, 0, 0x60, 1, 1, 1, 0, 0])) (fun t => (t.draws, t.responses.getD 8 0xFF)) = some (1, 0x02) ∧
    see (exec .rdTime (clock [0, 0, 0x53, 1, 1, 1, 0, 0])) (fun t => (t.draws, t.responses.getD 8 0xFF)) = some (1, 0x00) ∧
    see (exec .rdTime (clock [0, 0, 0x52, 1, 1, 1, 0, 0])) State.draws = some 0 := by decide

/-! ### Scratch memory (program P3 and vectors of section 2.7) -/

theorem test_rdreg_last : see (exec (.rdReg 0x3F) { State.reset with mem := [(0x3F, 0xFF)] }) State.responses =
    some [0x00, 0xFF] := by decide
theorem test_mrd1_55 : see (exec (.mrd1 55) { State.reset with mem := [(0x3F, 0x5A)] }) (fun t => (t.responses, t.trace)) =
    some ([0x00, 0x5A], [.begin 0x68, .write 0x3F, .stop, .request 0x68 1, .read 0x5A]) := by decide
/-- P3 step 10: dropped, no event. -/
theorem test_mrd1_56_dropped : see (exec (.mrd1 56) State.reset) State.trace = some [] := by decide
theorem test_mwr1_55 : see (exec (.mwr1 55 0x5A) State.reset) State.trace =
    some [.begin 0x68, .write 0x3F, .write 0x5A, .stop] := by decide
theorem test_mwr1_56_dropped : see (exec (.mwr1 56 0x77) State.reset) (fun t => (t.trace, t.responses)) =
    some ([], [0x00]) := by decide
/-- M10: 32 bytes and one, the second segment at 0x3F; 41 events. -/
theorem test_mrdb_m10 : see (exec (.mrdb 23 33) { State.reset with mem := [(0x1F, 1), (0x3F, 2)] })
    (fun t => (t.responses.length, t.responses.getD 1 0, t.responses.getD 33 0, t.trace.length)) =
      some (34, 1, 2, 41) := by decide
theorem test_mrdb_m23_dropped : see (exec (.mrdb 200 100) State.reset) (fun t => (t.responses, t.trace)) =
    some ([0x00], []) := by decide
/-- M5 (E6): 40 bytes in two transactions, 46 events, the second at 0x28. -/
theorem test_mwrb_m5 : see (exec (.mwrb 0 (List.replicate 40 0xA0)) State.reset)
    (fun t => (t.trace.length, t.trace[36]?, t.mem.length)) = some (46, some (.write 0x28), 40) := by decide
theorem test_mwrb_m15_dropped : see (exec (.mwrb 54 (List.replicate 10 1)) State.reset) (fun t => (t.trace, t.mem)) =
    some ([], []) := by decide

/-! ### BCD (program P4) and IllegalCommand (section 2.9) -/

theorem test_d2b_59 : see (exec (.d2b 59) State.reset) State.responses = some [0x00, 0x59] := by decide
theorem test_d2b_99 : see (exec (.d2b 99) State.reset) State.responses = some [0x00, 0x99] := by decide
theorem test_b2d_59 : see (exec (.b2d 0x59) State.reset) State.responses = some [0x00, 59] := by decide
theorem test_b2d_99 : see (exec (.b2d 0x99) State.reset) State.responses = some [0x00, 99] := by decide
/-- I10: nine bytes consumed, nothing written. -/
theorem test_illegal_i10 :
    see (step (port [0x20, 0x00, 0x00, 0x00, 0x01, 0x01, 0x01, 0x00, 0x02])) (fun t => (t.input, t.responses, t.trace)) =
      some ([], [0xFF], []) := by decide
/-- I13: one byte consumed. -/
theorem test_illegal_i13 : see (step (port [0x15, 0x01])) (fun t => (t.input, t.responses, t.illegals)) =
    some ([0x01], [0xFF], 1) := by decide

/-! ### Witnesses: values that meet the hypotheses of the statements, at the bounds of their clauses -/

/-- Decode and encode (`DecodeEncodeRoundTrip`, `DecodedBytesAreTheEncoding`). -/
theorem witness_decode_encode :
    (Instr.rdReg 0x3F).wf = true ∧ (Instr.mwrb 0xFF [0x00, 0xFF]).wf = true ∧
    decode [0x40, 0x3F, 0x18] = .command (.rdReg 0x3F) [0x18] ∧
    decode [0x44, 0xFF, 0x02, 0x00, 0xFF] = .command (.mwrb 0xFF [0x00, 0xFF]) [] := by decide

/-- `StepRunsTheDecodedCommand`. -/
theorem witness_step_runs :
    (Instr.sqwFreq .f32khz).wf = true ∧ (port [0x13, 0x03, 0x18]).input = encode (.sqwFreq .f32khz) ++ [0x18] := by decide

/-- `IllegalEncodingsAreConsumed`: the bounds of the opcode holes, and the first operand above each type's bound. -/
theorem witness_illegal_encodings :
    (∀ op ∈ ([0x00, 0x0F, 0x15, 0x17, 0x1D, 0x1E, 0x22, 0x2F, 0x31, 0x3F, 0x45, 0x4F, 0x52, 0xFF] : List Byte),
      op ∉ ([0x10, 0x11, 0x12, 0x13, 0x14, 0x18, 0x19, 0x1A, 0x1B, 0x1C, 0x1F, 0x20, 0x21, 0x30, 0x40, 0x41, 0x42,
        0x43, 0x44, 0x50, 0x51] : List Byte)) ∧
    (port [0x14, 0x02]).input = 0x14 :: [0x02] ∧ 1 < (0x02 : Byte).toNat ∧
    (port [0x13, 0x04]).input = 0x13 :: [0x04] ∧ 3 < (0x04 : Byte).toNat ∧
    (port [0x40, 0x40]).input = 0x40 :: [0x40] ∧ 0x3F < (0x40 : Byte).toNat ∧
    (port [0x20, 0, 0, 0, 1, 1, 1, 0, 2]).input = 0x20 :: [0, 0, 0, 1, 1, 1, 0, 2] := by decide

/-- `IllegalCommandHasNoOtherEffect`: both reasons, each with a command after it. -/
theorem witness_illegal_command :
    decode (port [0x00, 0x10, 0x01]).input = .illegal (.unknownOpcode 0x00) [0x10, 0x01] ∧
    [0x10, 0x01] = encode (.setHalt true) ++ [] ∧
    decode (port [0x10, 0x02, 0x18]).input = .illegal (.badOperand .setHalt) [0x18] ∧
    [0x18] = encode .qHalt ++ [] := by decide

/-- `IncompleteCommandIsStuck`, `EmptyPortEndsTheRun`. -/
theorem witness_incomplete :
    (Instr.mwrb 0 [1, 2]).wf = true ∧ (port [0x44, 0x00, 0x02, 0x01]).input ≠ [] ∧ [(0x02 : Byte)] ≠ [] ∧
    encode (.mwrb 0 [1, 2]) = (port [0x44, 0x00, 0x02, 0x01]).input ++ [0x02] ∧ (port []).input = [] := by decide

/-- The premises of `ResetMeetsTheInvariant`, at a chip that holds something and another injective map. -/
theorem witness_reset_premises :
    Mem.wf [(0x00, 0x80), (0x3F, 0x01)] = true ∧ (FreqCode.mk 0b11 0b10 0b01 0b00).Injective := by decide

/-- The reset state meets the invariant, and steps from it exist: `StepKeepsTheInvariant`. -/
theorem reset_inv : State.reset.Inv :=
  ⟨by decide, rfl, by decide, by simp [State.reset, State.resetWith]⟩

theorem witness_step_keeps :
    (port [0x20, 0, 0, 0, 1, 1, 1, 0, 0]).Inv ∧ ∃ t, step (port [0x20, 0, 0, 0, 1, 1, 1, 0, 0]) = .next t :=
  ⟨⟨by decide, rfl, by decide, by simp [port, State.setInput, State.reset, State.resetWith]⟩, _, rfl⟩

/-- The operand bytes at and above each setter's bound (the step clauses of the setter statements). -/
theorem witness_setter_bytes :
    (port [0x10, 0x01]).input = 0x10 :: 0x01 :: [] ∧ (port [0x10, 0x02]).input = 0x10 :: 0x02 :: [] ∧
    (port [0x11, 0x01]).input = 0x11 :: 0x01 :: [] ∧ (port [0x11, 0xFF]).input = 0x11 :: 0xFF :: [] ∧
    (port [0x12, 0x00]).input = 0x12 :: 0x00 :: [] ∧ (port [0x12, 0x02]).input = 0x12 :: 0x02 :: [] ∧
    (port [0x13, 0x03]).input = 0x13 :: 0x03 :: [] ∧ (port [0x13, 0x04]).input = 0x13 :: 0x04 :: [] ∧
    (port [0x14, 0x01]).input = 0x14 :: 0x01 :: [] ∧ (port [0x14, 0x02]).input = 0x14 :: 0x02 :: [] := by decide

/-- `SettersAreDeferred`, `SettersLastWriteWins`: one pair of the same command, one of different commands. -/
theorem witness_setters :
    IsSetter (.sqwEn true) ∧ IsSetter (.sqwEn false) ∧ IsSetter (.sqwPol true) ∧
    (Instr.sqwEn true).opcode = (Instr.sqwEn false).opcode ∧ (Instr.sqwEn true).opcode ≠ (Instr.sqwPol true).opcode ∧
    ∃ t u v, exec (.sqwEn true) State.reset = .next t ∧ exec (.sqwEn false) t = .next u ∧
      exec (.sqwPol true) t = .next v :=
  ⟨trivial, trivial, trivial, rfl, by decide, _, _, _, rfl, rfl, rfl⟩

/-- The step clauses of the queries, BEGIN, RDTIME; `QSqwFreqAnswersCachedCode` has an injective map at reset. -/
theorem witness_operandless_bytes :
    (port [0x18]).input = 0x18 :: [] ∧ (port [0x19]).input = 0x19 :: [] ∧ (port [0x1A]).input = 0x1A :: [] ∧
    (port [0x1B]).input = 0x1B :: [] ∧ (port [0x1C]).input = 0x1C :: [] ∧ (port [0x1F]).input = 0x1F :: [] ∧
    (port [0x30]).input = 0x30 :: [] ∧ State.reset.params.freqCode.Injective := by decide

/-- `BeginDiscardsPendingIntent`. -/
theorem witness_begin_discards :
    IsSetter (.setHalt true) ∧ ∃ t u, exec (.setHalt true) State.reset = .next t ∧ exec .sync t = .next u :=
  ⟨trivial, _, _, rfl, rfl⟩

/-- `CachedQueriesSeeOnlyAcb`, each of the three. -/
theorem witness_cached :
    ∃ t u v, exec .qSqwEn State.reset = .next t ∧ exec .qSqwFreq State.reset = .next u ∧
      exec .qSqwPol State.reset = .next v :=
  ⟨_, _, _, rfl, rfl, rfl⟩

/-- `ReadThroughIgnoresCodecFields`. -/
theorem witness_read_through :
    NeedsNoField .qHalt ∧ NeedsNoField (.mwrb 0 [1]) ∧
    ∃ t u, exec .qHalt State.reset = .next t ∧ exec (.mwrb 0 [1]) State.reset = .next u :=
  ⟨trivial, trivial, _, _, rfl, rfl⟩

/-- `CommitWritesTheFrame`: operands at both ends of their ranges, in both hour formats, and where the clamp meets. -/
theorem witness_time_in_range :
    TimeInRange ⟨0, 0, 0, 1, 1, 1, 0⟩ true ∧ TimeInRange ⟨59, 59, 23, 7, 31, 12, 99⟩ true ∧
    TimeInRange ⟨0, 0, 1, 1, 1, 1, 0⟩ false ∧ TimeInRange ⟨59, 59, 23, 7, 31, 12, 99⟩ false ∧
    TimeInRange ⟨0, 0, 12, 1, 1, 1, 0⟩ false ∧ TimeInRange ⟨0, 0, 13, 1, 1, 1, 0⟩ false := by decide

/-- `CommitOutOfRangeOperandFreesOneByte`: a byte given and a byte not given, at the bounds; its step clause. -/
theorem witness_frame_given :
    (frameGiven ⟨59, 60, 0, 7, 32, 12, 100⟩ false)[0]? = some true ∧
    (frameGiven ⟨59, 60, 0, 7, 32, 12, 100⟩ false)[1]? = some false ∧
    (frameGiven ⟨59, 60, 0, 7, 32, 12, 100⟩ false)[2]? = some false ∧
    (frameGiven ⟨59, 60, 24, 8, 31, 13, 99⟩ true)[2]? = some false ∧
    (frameGiven ⟨59, 60, 24, 8, 31, 13, 99⟩ true)[7]? = some true ∧
    (port [0x20, 0, 0, 0, 1, 1, 1, 0, 1]).input = 0x20 :: 0 :: 0 :: 0 :: 1 :: 1 :: 1 :: 0 :: 1 :: [] ∧
    (port [0x20, 0, 0, 0, 1, 1, 1, 0, 2]).input = 0x20 :: 0 :: 0 :: 0 :: 1 :: 1 :: 1 :: 0 :: 2 :: [] ∧
    (port [0x21, 0, 0, 0, 1, 1, 1, 0]).input = 0x21 :: 0 :: 0 :: 0 :: 1 :: 1 :: 1 :: 0 :: [] := by decide

/-- `Commit24IsSet24hThenCommit`, `ConfirmedControlEqualsPending`. -/
theorem witness_commit24 :
    ∃ u v w x y, exec (.set24h true) State.reset = .next u ∧ exec (.commit ⟨0, 0, 0, 1, 1, 1, 0⟩ false) u = .next v ∧
      exec (.commit ⟨0, 0, 0, 1, 1, 1, 0⟩ true) State.reset = .next w ∧
      exec (.commit24 ⟨0, 0, 0, 1, 1, 1, 0⟩) State.reset = .next x ∧ exec .sync State.reset = .next y :=
  ⟨_, _, _, _, _, rfl, rfl, rfl, rfl, rfl⟩

/-- `ConfigurationReadsBackAfterCommit`. -/
theorem witness_configuration :
    State.reset.params.freqCode.Injective ∧ ∃ s1 s2 s3 s4 s5 s6 s7,
      exec (.sqwFreq .f8khz) State.reset = .next s1 ∧ exec (.sqwEn true) s1 = .next s2 ∧
      exec (.sqwPol false) s2 = .next s3 ∧ exec (.commit24 ⟨0, 0, 0, 1, 1, 1, 0⟩) s3 = .next s4 ∧
      exec .qSqwFreq s4 = .next s5 ∧ exec .qSqwEn s5 = .next s6 ∧ exec .qSqwPol s6 = .next s7 :=
  ⟨by decide, _, _, _, _, _, _, _, rfl, rfl, rfl, rfl, rfl, rfl, rfl⟩

/-- `RdTimeDecodesTheFrame`: a field given and one that is not (vector D11), a 12-hour hour at and beyond both ends of
1 to 12, and 12-hour mode. -/
theorem witness_rdtime :
    (readGiven ((clock [0x0A, 0x59, 0x72]).answer 0x00))[0]? = some false ∧
    (readGiven ((clock [0x0A, 0x59, 0x72]).answer 0x00))[1]? = some true ∧
    (readGiven ((clock [0x0A, 0x59, 0x72]).answer 0x00))[2]? = some true ∧
    (readGiven ((clock [0, 0, 0x41]).answer 0x00))[2]? = some true ∧
    (readGiven ((clock [0, 0, 0x40]).answer 0x00))[2]? = some false ∧
    (readGiven ((clock [0, 0, 0x53]).answer 0x00))[2]? = some false ∧
    (readGiven ((clock [0, 0, 0x00]).answer 0x00))[2]? = some true ∧
    (readGiven ((clock [0, 0, 0x3A]).answer 0x00))[2]? = some false ∧
    ((clock [0x0A, 0x59, 0x72]).answer 0x00 2).bit 6 = true := by decide

/-- `RdTime24HourReadIsNotPm`: vector D9's hours byte. -/
theorem witness_rdtime_24h : ((clock [0x80, 0x00, 0x92]).answer 0x00 2).bit 6 = false := by decide

/-- `CommitThenReadTimeRoundTrip` and `ReferenceChipReturnsTheFrame`, at hour 13 in 12-hour mode. -/
theorem witness_round_trip :
    TimeInRange ⟨59, 59, 13, 7, 31, 12, 99⟩ State.reset.use24 ∧ Mem.wf State.reset.mem = true ∧ State.reset.oracle = [] ∧
    ∃ u v, exec (.commit ⟨59, 59, 13, 7, 31, 12, 99⟩ false) State.reset = .next u ∧
      u.answers 0x00 8 = frameFormula ⟨59, 59, 13, 7, 31, 12, 99⟩ false State.reset.halted State.reset.use24
        State.reset.pcb ∧
      exec .rdTime u = .next v :=
  ⟨by decide, by decide, rfl, _, _, rfl, by decide, rfl⟩

/-- The step clauses of RDREG, the scratch commands and the BCD commands, RDREG at and above its bound. -/
theorem witness_operand_bytes :
    (port [0x40, 0x3F]).input = 0x40 :: 0x3F :: [] ∧ (port [0x40, 0x40]).input = 0x40 :: 0x40 :: [] ∧
    (port [0x41, 55]).input = 0x41 :: 55 :: [] ∧ (port [0x43, 55, 1]).input = 0x43 :: 55 :: 1 :: [] ∧
    (port [0x42, 23, 33]).input = 0x42 :: 23 :: 33 :: [] ∧
    ([0xEE, 0xFF] : List Byte).length = (2 : Byte).toNat ∧
    (port [0x44, 54, 2, 0xEE, 0xFF]).input = 0x44 :: 54 :: 2 :: ([0xEE, 0xFF] ++ []) ∧
    (port [0x50, 99]).input = 0x50 :: 99 :: [] ∧ (port [0x51, 0x99]).input = 0x51 :: 0x99 :: [] := by decide

/-- `MwrbDataLandsAtItsOffset`, `ScratchWriteReadsBack`: two segments up to the last byte (vector M10). -/
theorem witness_scratch :
    Mem.wf State.reset.mem = true ∧ State.reset.oracle = [] ∧ (List.replicate 33 (0xA5 : Byte)).length = (33 : Byte).toNat ∧
    (23 : Byte).toNat + (33 : Byte).toNat ≤ 56 ∧
    ∃ t u, exec (.mwrb 23 (List.replicate 33 0xA5)) State.reset = .next t ∧ exec (.mrdb 23 33) t = .next u :=
  ⟨by decide, rfl, by decide, by decide, _, _, rfl, rfl⟩

/-- `OutOfRangeRequestsAreDropped`: one byte too far for each command, and a sum above 255. -/
theorem witness_dropped :
    56 < (56 : Byte).toNat + 1 ∧ 56 < (24 : Byte).toNat + (33 : Byte).toNat ∧ 56 < (255 : Byte).toNat + (255 : Byte).toNat ∧
    56 < (55 : Byte).toNat + ([1, 2] : List Byte).length := by decide

/-- `SegmentShrinkNeverFires`: vectors M10 and M2. -/
theorem witness_segments : 23 + 33 ≤ 56 ∧ (23, 32) ∈ segments 23 33 ∧ (55, 1) ∈ segments 23 33 ∧ (0, 1) ∈ segments 0 1 := by
  decide

/-- `ClockRegistersWrittenOnlyByCommit`: a byte that does change, by either command. -/
theorem witness_clock_write :
    Mem.wf State.reset.mem = true ∧ ∃ t u, exec (.commit ⟨1, 0, 0, 1, 1, 1, 0⟩ false) (fields 0 0 false true) = .next t ∧
      Mem.read t.mem 0 ≠ Mem.read (fields 0 0 false true).mem 0 ∧
      exec (.commit24 ⟨0, 0, 0, 1, 1, 1, 0⟩) (fields 0x80 0 false false) = .next u ∧
      Mem.read u.mem 7 ≠ Mem.read (fields 0x80 0 false false).mem 7 :=
  ⟨by decide, _, _, rfl, by decide, rfl, by decide⟩

/-- `D2bEncodes`, `B2dDecodes`, `BcdCommandsRoundTrip`, `BcdFunctionsAreInverse`: the bounds of the two domains. -/
theorem witness_bcd :
    (99 : Byte).toNat ≤ 99 ∧ ¬ (100 : Byte).toNat ≤ 99 ∧ IsBcd 0x99 ∧ ¬ IsBcd 0x9A ∧
    ∃ t, exec (.d2b 99) State.reset = .next t :=
  ⟨by decide, by decide, by decide, by decide, _, rfl⟩

/-- `WriteMatrixHolds`, `OneResponsePerCommand`, `BusTraceIsLegalTransactions`, `EarlierPointerDoesNotMatter`: a command
of each shape that answers a next state; the premises of the write matrix. -/
theorem witness_next_states :
    Field.pcb ∉ mayWrite .rdTime ∧ Field.acb ∉ mayWrite (.sqwEn true) ∧ Field.halted ∉ mayWrite .qHalt ∧
    Field.use24 ∉ mayWrite (.commit ⟨0, 0, 0, 1, 1, 1, 0⟩ false) ∧
    ∃ a b c d e, exec .rdTime State.reset = .next a ∧ exec (.sqwEn true) State.reset = .next b ∧
      exec .qHalt State.reset = .next c ∧ exec (.commit ⟨0, 0, 0, 1, 1, 1, 0⟩ false) State.reset = .next d ∧
      exec (.mrdb 0 56) State.reset = .next e :=
  ⟨by decide, by decide, by decide, by decide, _, _, _, _, _, rfl, rfl, rfl, rfl, rfl⟩

/-- `ChipBytesNotStoredToAreKept`: the first bytes beyond what each storing command stores to. -/
theorem witness_not_stored :
    Mem.wf State.reset.mem = true ∧ storesTo 8 (.commit ⟨0, 0, 0, 1, 1, 1, 0⟩ false) = false ∧
    storesTo 7 (.mwr1 0 1) = false ∧ storesTo 9 (.mwr1 0 1) = false ∧ storesTo 0x3F (.mwr1 56 1) = false ∧
    storesTo 0x3D (.mwrb 54 [1, 2]) = false ∧ storesTo 0x40 (.mwrb 54 [1, 2]) = false ∧
    storesTo 0x3E (.mwrb 54 [1, 2, 3]) = false ∧
    ∃ t, exec (.mwrb 54 [1, 2]) State.reset = .next t :=
  ⟨by decide, by decide, by decide, by decide, by decide, by decide, by decide, by decide, _, rfl⟩

end Sys2Proof.Tests
end

section
/-! PROOFS. Illegal encodings (spec 30_encoding.md R76): which bytes the decoder refuses, and the one step that
IllegalCommand takes (60_exceptions.md R221). -/

namespace Sys2Proof

/-- The byte column of the opcode table (30_encoding.md R75). -/
theorem Opcode.all_map_byte :
    Opcode.all.map Opcode.byte =
      [0x10, 0x11, 0x12, 0x13, 0x14, 0x18, 0x19, 0x1A, 0x1B, 0x1C, 0x1F, 0x20, 0x21, 0x30, 0x40, 0x41, 0x42,
        0x43, 0x44, 0x50, 0x51] := rfl

/-- A byte names no opcode exactly when the table does not list it. -/
theorem Opcode.ofByte_eq_none {b : Byte} : Opcode.ofByte b = none ↔ b ∉ Opcode.all.map Opcode.byte := by
  simp [Opcode.ofByte, List.find?_eq_none]

theorem decode_unknownOpcode {b : Byte} (h : Opcode.ofByte b = none) (args : List Byte) :
    decode (b :: args) = .illegal (.unknownOpcode b) args := by
  rw [decode_cons, h]

/-- A typed operand that reads as no value makes the whole command illegal. -/
theorem decode_badOperand {α : Type} {op : Opcode} {args rest : List Byte} {operand : Option α} {mk : α → Instr}
    (hop : decodeOperands op args = checked op (operand.map mk) rest) (hnone : operand = none) :
    decode (op.byte :: args) = .illegal (.badOperand op) rest := by
  rw [decode_opcode, hop, hnone]
  rfl

namespace Machine

/-- The step on any illegal encoding, whatever the reason: the refused bytes are gone, the response is 0xFF and the
run's record counts it (60_exceptions.md R221). -/
theorem step_of_decode_illegal {s : State} {why : IllegalReason} {rest : List Byte}
    (h : decode s.input = .illegal why rest) :
    step s = .next { s with input := rest, responses := s.responses ++ [0xFF], illegals := s.illegals + 1 } := by
  rw [step, h]
  rfl

/-- `step_of_decode_illegal` for a typed operand that reads as no value. -/
theorem step_of_badOperand {α : Type} {s : State} (op : Opcode) {args rest : List Byte} {operand : Option α}
    {mk : α → Instr} (hs : s.input = op.byte :: args)
    (hop : decodeOperands op args = checked op (operand.map mk) rest) (hnone : operand = none) :
    step s = .next { s with input := rest, responses := s.responses ++ [0xFF], illegals := s.illegals + 1 } :=
  step_of_decode_illegal (hs ▸ decode_badOperand hop hnone)

/-- Settles O5: the decoder finds each of these encodings illegal, the operand bounds by the `_eq_none` lemmas of the
operand readers, and every illegal encoding takes the same step. -/
theorem illegalEncodingsAreConsumed : Obligations.IllegalEncodingsAreConsumed := by
  intro s op args hs
  refine ⟨?opcode, ?typed, ?isPM⟩
  case opcode =>
    intro hop
    rw [← Opcode.all_map_byte] at hop
    exact step_of_decode_illegal (hs ▸ decode_unknownOpcode (Opcode.ofByte_eq_none.mpr hop) args)
  case typed =>
    rintro a rest rfl (⟨hop, ha⟩ | ⟨rfl, ha⟩ | ⟨rfl, ha⟩)
    · have hnone := boolOfByte_eq_none.mpr ha
      obtain rfl | rfl | rfl | rfl := hop
      · exact step_of_badOperand .setHalt hs rfl hnone
      · exact step_of_badOperand .set24h hs rfl hnone
      · exact step_of_badOperand .sqwEn hs rfl hnone
      · exact step_of_badOperand .sqwPol hs rfl hnone
    · exact step_of_badOperand .sqwFreq hs rfl (freqOfByte_eq_none.mpr ha)
    · exact step_of_badOperand .rdReg hs rfl (addrOfByte_eq_none.mpr ha)
  case isPM =>
    rintro sec min hr dow dom mon yr pm rest rfl rfl hpm
    exact step_of_badOperand .commit hs rfl (boolOfByte_eq_none.mpr hpm)

end Machine

end Sys2Proof
end

section
/-! PROOFS. The configuration setters (spec 40_config_setters.md R100 to R105): what each one's step does with its
operand byte, what it writes, and the bits of the control byte it changes. -/

namespace Sys2Proof

/-- What a boolean operand byte reads as (30_encoding.md R74). -/
theorem boolOfByte_eq_ite (a : Byte) : boolOfByte a = if a.toNat ≤ 1 then some (decide (a = 1)) else none := by
  revert a; decide

/-- A typed operand that reads as a value makes the command of that value. -/
theorem decode_goodOperand {α : Type} {op : Opcode} {args rest : List Byte} {operand : Option α} {mk : α → Instr}
    {x : α} (hop : decodeOperands op args = checked op (operand.map mk) rest) (hsome : operand = some x) :
    decode (op.byte :: args) = .command (mk x) rest := by
  rw [decode_opcode, hop, hsome]
  rfl

namespace Machine

/-! ### The step on a typed operand -/

theorem step_of_decode_command {s : State} {i : Instr} {rest : List Byte} (h : decode s.input = .command i rest) :
    step s = exec i { s with input := rest } := by
  rw [step, h]
  rfl

/-- `step_of_decode_command` for a typed operand that reads as a value. -/
theorem step_of_goodOperand {α : Type} {s : State} (op : Opcode) {args rest : List Byte} {operand : Option α}
    {mk : α → Instr} {x : α} (hs : s.input = op.byte :: args)
    (hop : decodeOperands op args = checked op (operand.map mk) rest) (hsome : operand = some x) :
    step s = exec (mk x) { s with input := rest } :=
  step_of_decode_command (hs ▸ decode_goodOperand hop hsome)

/-- The step of a command whose one operand is a boolean byte (format B). -/
theorem step_of_boolOperand {s : State} (op : Opcode) {a : Byte} {rest : List Byte} {mk : Bool → Instr}
    (hs : s.input = op.byte :: a :: rest)
    (hop : decodeOperands op (a :: rest) = checked op ((boolOfByte a).map mk) rest) :
    step s = if a.toNat ≤ 1 then exec (mk (decide (a = 1))) { s with input := rest }
      else .next { s with input := rest, responses := s.responses ++ [0xFF], illegals := s.illegals + 1 } := by
  have hread := boolOfByte_eq_ite a
  split at hread
  · next ha => rw [if_pos ha]; exact step_of_goodOperand op hs hop hread
  · next ha => rw [if_neg ha]; exact step_of_badOperand op hs hop hread

/-! ### What each setter writes -/

theorem exec_setHalt (b : Bool) (s : State) :
    exec (.setHalt b) s = .next { s with halted := b, responses := s.responses ++ [0x00] } := rfl

theorem exec_set24h (b : Bool) (s : State) :
    exec (.set24h b) s = .next { s with use24 := b, responses := s.responses ++ [0x00] } := rfl

theorem exec_sqwEn (b : Bool) (s : State) :
    exec (.sqwEn b) s = .next { s with pcb := withSqwEnable s.pcb b, responses := s.responses ++ [0x00] } := rfl

theorem exec_sqwFreq (f : Freq) (s : State) :
    exec (.sqwFreq f) s = .next { s with
      pcb := withSqwFreq s.pcb (freqPattern s.params.freqCode f), responses := s.responses ++ [0x00] } := rfl

theorem exec_sqwPol (p : Bool) (s : State) :
    exec (.sqwPol p) s = .next { s with pcb := withSqwPolarity s.pcb p, responses := s.responses ++ [0x00] } := rfl

/-! ### The bits of the control byte -/

/-- Bit `i` of a byte set or cleared through its mask: the common form of SQWEN's and SQWPOL's updates. -/
def writeBit (c : Byte) (i : Nat) (v : Bool) : Byte :=
  if v then c ||| BitVec.twoPow 8 i else c &&& ~~~BitVec.twoPow 8 i

theorem writeBit_bit {i : Nat} (hi : i < 8) (c : Byte) (v : Bool) (k : Nat) :
    (writeBit c i v).bit k = if k = i then v else c.bit k := by
  by_cases hk : k = i
  · subst hk
    cases v <;> simp [writeBit, hi]
  · cases v
    · have hlow : c.getLsbD k = true → k < 8 := BitVec.lt_of_getLsbD
      simpa [writeBit, hi, hk, Ne.symm hk] using hlow
    · simp [writeBit, hi, hk, Ne.symm hk]

theorem withSqwEnable_eq_writeBit (pcb : Byte) (b : Bool) : withSqwEnable pcb b = writeBit pcb 4 b := by
  cases b <;> rfl

/-- Logic-high clears the bit (40_config_setters.md R104). -/
theorem withSqwPolarity_eq_writeBit (pcb : Byte) (high : Bool) : withSqwPolarity pcb high = writeBit pcb 7 !high := by
  cases high <;> rfl

/-- SQWFREQ's mask is bits 7:2. -/
theorem sqwFreqMask_getLsbD (k : Nat) : BitVec.getLsbD (0xFC : Byte) k = (decide (k < 8) && !decide (k < 2)) := by
  rw [show (0xFC : Byte) = BitVec.allOnes 8 <<< 2 from rfl, BitVec.getLsbD_shiftLeft, BitVec.getLsbD_allOnes]
  by_cases hk : k < 8
  · simp [show k - 2 < 8 by omega]
  · simp [hk]

theorem withSqwFreq_bit (pcb : Byte) (c : BitVec 2) (k : Nat) :
    (withSqwFreq pcb c).bit k = if k < 2 then c.getLsbD k else pcb.bit k := by
  simp only [withSqwFreq, Byte.bit, BitVec.getLsbD_or, BitVec.getLsbD_and, BitVec.getLsbD_setWidth,
    sqwFreqMask_getLsbD]
  split
  · next hk => simp [hk, show k < 8 by omega]
  · next hk =>
    rw [BitVec.getLsbD_of_ge c k (by omega)]
    have hbound : pcb.getLsbD k = true → k < 8 := BitVec.lt_of_getLsbD
    simpa [hk] using hbound

theorem withSqwFreq_setWidth (pcb : Byte) (c : BitVec 2) : (withSqwFreq pcb c).setWidth 2 = c := by
  refine BitVec.eq_of_getLsbD_eq fun k hk => ?_
  rw [BitVec.getLsbD_setWidth, decide_eq_true hk, Bool.true_and]
  exact (withSqwFreq_bit pcb c k).trans (if_pos hk)

/-! ### The obligations -/

/-- Settles O15: SQWEN's update is `writeBit` at bit 4. -/
theorem sqwEnWritesBitFourOnly : Obligations.SqwEnWritesBitFourOnly := by
  refine ⟨fun s b => ⟨_, exec_sqwEn b s, ?written, ?kept⟩, fun _ _ _ hs => step_of_boolOperand .sqwEn hs rfl⟩
  case written => rw [withSqwEnable_eq_writeBit, writeBit_bit (by decide), if_pos rfl]
  case kept =>
    intro k hk
    rw [withSqwEnable_eq_writeBit, writeBit_bit (by decide), if_neg hk]

/-- Settles O16: the bits by `withSqwFreq_bit`, the operand byte by the table of frequency bytes. -/
theorem sqwFreqWritesLowBitsOnly : Obligations.SqwFreqWritesLowBitsOnly := by
  refine ⟨fun s f => ⟨_, exec_sqwFreq f s, ?written, ?kept⟩, ?operand⟩
  case written =>
    rw [withSqwFreq_setWidth]
    cases f <;> rfl
  case kept =>
    intro k hk
    rw [withSqwFreq_bit, if_neg (by omega)]
  case operand =>
    intro s a rest hs
    split_ifs with h0 h1 h2 h3
    · exact step_of_goodOperand .sqwFreq hs rfl (h0 ▸ freqOfByte_freqByte .f1hz)
    · exact step_of_goodOperand .sqwFreq hs rfl (h1 ▸ freqOfByte_freqByte .f4khz)
    · exact step_of_goodOperand .sqwFreq hs rfl (h2 ▸ freqOfByte_freqByte .f8khz)
    · exact step_of_goodOperand .sqwFreq hs rfl (h3 ▸ freqOfByte_freqByte .f32khz)
    · exact step_of_badOperand .sqwFreq hs rfl (freqOfByte_eq_none.mpr (by bv_omega))

/-- Settles O17: SQWPOL's update is `writeBit` of the complement at bit 7. -/
theorem sqwPolWritesInvertedBitSeven : Obligations.SqwPolWritesInvertedBitSeven := by
  refine ⟨fun s p => ⟨_, exec_sqwPol p s, ?written, ?kept⟩, fun _ _ _ hs => step_of_boolOperand .sqwPol hs rfl⟩
  case written => rw [withSqwPolarity_eq_writeBit, writeBit_bit (by decide), if_pos rfl]
  case kept =>
    intro k hk
    rw [withSqwPolarity_eq_writeBit, writeBit_bit (by decide), if_neg hk]

/-- Settles O13, by `exec_setHalt` and the step on a boolean operand. -/
theorem setHaltWritesHaltedOnly : Obligations.SetHaltWritesHaltedOnly :=
  ⟨fun s b => exec_setHalt b s, fun _ _ _ hs => step_of_boolOperand .setHalt hs rfl⟩

/-- Settles O14, by `exec_set24h` and the step on a boolean operand. -/
theorem set24hWritesUse24Only : Obligations.Set24hWritesUse24Only :=
  ⟨fun s b => exec_set24h b s, fun _ _ _ hs => step_of_boolOperand .set24h hs rfl⟩

/-- Settles O18, setter by setter: the next state each `exec_` lemma gives has only those fields changed. -/
theorem settersAreDeferred : Obligations.SettersAreDeferred := by
  intro i s hi
  cases i with
  | setHalt b => exact ⟨_, exec_setHalt b s, rfl⟩
  | set24h b => exact ⟨_, exec_set24h b s, rfl⟩
  | sqwEn b => exact ⟨_, exec_sqwEn b s, rfl⟩
  | sqwFreq f => exact ⟨_, exec_sqwFreq f s, rfl⟩
  | sqwPol p => exact ⟨_, exec_sqwPol p s, rfl⟩
  | _ => exact hi.elim

end Machine

end Sys2Proof
end

section
/-! PROOFS. The configuration queries and BEGIN (spec 41_config_queries_begin.md R120 to R125): the step of a command
without operands, a single-register read, and what each query answers. -/

namespace Sys2Proof

/-- The complement of a flag placed in a byte, as Q24H and QSQWPOL answer it (41_config_queries_begin.md R121, R124). -/
theorem Byte.ofBool_not_eq_ite (b : Bool) : Byte.ofBool (!b) = if b then 0x00 else 0x01 := by
  cases b <;> rfl

namespace Machine

/-! ### The step of a command without operands -/

/-- `step_of_decode_command` for a command that is its opcode byte alone. -/
theorem step_of_opcodeAlone {s : State} (op : Opcode) {i : Instr} {rest : List Byte} (hs : s.input = op.byte :: rest)
    (hop : decodeOperands op rest = .command i rest) : step s = exec i { s with input := rest } :=
  step_of_decode_command (by rw [hs, decode_opcode, hop])

/-! ### A single-register read -/

@[simp] theorem State.afterRead_oracle (s : State) (a : Byte) (n : Nat) :
    (s.afterRead a n).oracle = s.oracle.drop n := rfl

@[simp] theorem State.afterRead_mem (s : State) (a : Byte) (n : Nat) : (s.afterRead a n).mem = s.mem := rfl

/-- What a read one transaction later returns: the next pending answers, the same chip bytes (20_memory.md R52). -/
theorem State.answer_afterRead (s : State) (a b : Byte) (n i : Nat) :
    (s.afterRead a n).answer b i = s.oracle.getD (n + i) (Mem.read s.mem (b.toNat + i)) := by
  simp [State.answer, List.getD_eq_getElem?_getD]

/-- A read of one byte below the last address: five events, one answer used up, the pointer one further
(44_scratch_memory.md R180). -/
theorem State.afterRead_one (s : State) {a : Byte} (ha : a.toNat + 1 < 64) :
    s.afterRead a 1 = { s with
      ptr := BitVec.ofNat 6 (a.toNat + 1)
      phase := .idle
      oracle := s.oracle.drop 1
      trace := s.trace ++ [.begin 0x68, .write a, .stop, .request 0x68 1, .read (s.answer a 0)] } := by
  have hptr : s.ptrAfter a 1 = BitVec.ofNat 6 (a.toNat + 1) := if_pos ha
  rw [State.afterRead, hptr]
  rfl

/-! ### What each command does -/

theorem exec_qHalt (s : State) :
    exec .qHalt s = .next ((s.afterRead 0x00 1).done [Byte.ofBool (haltBit (s.answer 0x00 0))]) := by
  rw [exec, execQHalt, State.rdReg_eq s (by decide)]

theorem exec_q24h (s : State) :
    exec .q24h s = .next ((s.afterRead 0x02 1).done [Byte.ofBool (!mode12Bit (s.answer 0x02 0))]) := by
  rw [exec, execQ24h, State.rdReg_eq s (by decide)]

theorem exec_qSqwEn (s : State) :
    exec .qSqwEn s = .next { s with responses := s.responses ++ [0x00, Byte.ofBool (sqwEnableBit s.acb)] } := rfl

theorem exec_qSqwFreq (s : State) :
    exec .qSqwFreq s = .next { s with
      responses := s.responses ++ [0x00, freqByte (freqOfPattern s.params.freqCode (sqwFreqBits s.acb))] } := rfl

theorem exec_qSqwPol (s : State) :
    exec .qSqwPol s = .next { s with responses := s.responses ++ [0x00, Byte.ofBool (sqwLevelHigh s.acb)] } := rfl

/-- BEGIN after its three reads, the fields written from the bytes they returned. -/
theorem exec_sync (s : State) :
    exec .sync s = .next { ((s.afterRead 0x07 1).afterRead 0x00 1).afterRead 0x02 1 with
      pcb := s.answer 0x07 0
      acb := s.answer 0x07 0
      halted := haltBit ((s.afterRead 0x07 1).answer 0x00 0)
      use24 := !mode12Bit (((s.afterRead 0x07 1).afterRead 0x00 1).answer 0x02 0)
      responses := s.responses ++ [0x00] } := by
  rw [exec, execSync, State.rdReg_eq s (by decide)]
  dsimp only
  rw [State.rdReg_eq _ (by decide), State.rdReg_eq _ (by decide)]
  rfl

/-! ### The frequency of a pattern -/

/-- Four different patterns are all the patterns of two bits. -/
theorem mem_patterns_of_injective {m : FreqCode} (hm : m.Injective) (c : BitVec 2) :
    c ∈ [m.f1hz, m.f4khz, m.f8khz, m.f32khz] := by
  by_contra hc
  have hlen := (List.nodup_cons.mpr ⟨hc, hm⟩).length_le_card
  rw [← FinEnum.card_eq_fintypeCard, FinEnum.card_bitVec] at hlen
  simp at hlen

theorem freqPattern_freqOfPattern {m : FreqCode} (hm : m.Injective) (c : BitVec 2) :
    freqPattern m (freqOfPattern m c) = c := by
  have hc := mem_patterns_of_injective hm c
  simp only [List.mem_cons, List.not_mem_nil, or_false] at hc
  unfold freqOfPattern
  split_ifs with h1 h4 h8
  · exact h1.symm
  · exact h4.symm
  · exact h8.symm
  · exact (((hc.resolve_left h1).resolve_left h4).resolve_left h8).symm

theorem freqByte_toNat_le (f : Freq) : (freqByte f).toNat ≤ 3 := by
  cases f <;> decide

/-- The frequency byte is the place of the pattern in the listing order (30_encoding.md R74). -/
theorem patterns_getElem?_freqByte (m : FreqCode) (f : Freq) :
    [m.f1hz, m.f4khz, m.f8khz, m.f32khz][(freqByte f).toNat]? = some (freqPattern m f) := by
  cases f <;> rfl

/-! ### The obligations -/

/-- Settles O20: one read of the seconds register, and the halt bit of its byte. -/
theorem qHaltAnswersChipHaltBit : Obligations.QHaltAnswersChipHaltBit := by
  refine ⟨fun s => ?next, fun _ _ hs => step_of_opcodeAlone .qHalt hs rfl⟩
  case next =>
    rw [exec_qHalt, State.afterRead_one s (by decide)]
    rfl

/-- Settles O21: one read of the hours register, and the complement of the 12-hour bit of its byte. -/
theorem q24hAnswersChipModeBit : Obligations.Q24hAnswersChipModeBit := by
  refine ⟨fun s => ?next, fun _ _ hs => step_of_opcodeAlone .q24h hs rfl⟩
  case next =>
    rw [exec_q24h, State.afterRead_one s (by decide), Byte.ofBool_not_eq_ite]
    rfl

/-- Settles O23: the answer is the number of the frequency whose pattern the injective map gives back. -/
theorem qSqwFreqAnswersCachedCode : Obligations.QSqwFreqAnswersCachedCode := by
  refine ⟨fun s hm => ⟨_, exec_qSqwFreq s, freqByte_toNat_le _, ?pattern⟩,
    fun _ _ hs => step_of_opcodeAlone .qSqwFreq hs rfl⟩
  case pattern =>
    rw [patterns_getElem?_freqByte, freqPattern_freqOfPattern hm]
    rfl

/-- Settles O25: the three reads one after the other, each using up one answer. -/
theorem beginSynchronisesFromTheChip : Obligations.BeginSynchronisesFromTheChip := by
  refine ⟨fun s => ?next, fun _ _ hs => step_of_opcodeAlone .sync hs rfl⟩
  case next =>
    have hsec : (s.afterRead 0x07 1).answer 0x00 0 = s.oracle.getD 1 (Mem.read s.mem 0) :=
      s.answer_afterRead 0x07 0x00 1 0
    have hhrs : ((s.afterRead 0x07 1).afterRead 0x00 1).answer 0x02 0 = s.oracle.getD 2 (Mem.read s.mem 2) := by
      rw [State.answer_afterRead, State.afterRead_oracle, State.afterRead_mem]
      simp [List.getD_eq_getElem?_getD]
    rw [exec_sync, State.afterRead_one _ (by decide), hhrs, State.afterRead_one _ (by decide), hsec,
      State.afterRead_one s (by decide)]
    simp only [List.drop_drop, List.append_assoc, List.cons_append, List.nil_append]
    rfl

/-- Settles O22: bit 4 of the active control byte is the enable bit. -/
theorem qSqwEnAnswersCachedBit : Obligations.QSqwEnAnswersCachedBit :=
  ⟨fun s => exec_qSqwEn s, fun _ _ hs => step_of_opcodeAlone .qSqwEn hs rfl⟩

/-- Settles O24: logic-high is bit 7 of the active control byte clear. -/
theorem qSqwPolAnswersInvertedCachedBit : Obligations.QSqwPolAnswersInvertedCachedBit :=
  ⟨fun s => by rw [exec_qSqwPol, sqwLevelHigh, Byte.ofBool_not_eq_ite],
    fun _ _ hs => step_of_opcodeAlone .qSqwPol hs rfl⟩

end Machine

end Sys2Proof
end

section
/-! PROOFS. The time commit (spec 42_time_commit.md R140 to R148): the write frame byte by byte against the spec's
formulas, what COMMIT does for any operands, and the step on its bytes. -/

namespace Sys2Proof.Machine

/-! ### The bytes of the write frame -/

/-- A byte the spec gives when `given` holds, unspecified otherwise. -/
def givenByte (given : Bool) (b : Byte) : Option Byte := if given then some b else none

@[simp] theorem givenByte_true (b : Byte) : givenByte true b = some b := rfl

@[simp] theorem givenByte_false (b : Byte) : givenByte false b = none := rfl

theorem toBcd_of_le {v : Byte} (h : v.toNat ≤ 99) : toBcd v = some (bcdByte v) := if_pos h

theorem fieldByte_eq {lo hi : Nat} (hhi : hi ≤ 99) (v : Byte) :
    fieldByte lo hi v = givenByte (decide (lo ≤ v.toNat ∧ v.toNat ≤ hi)) (bcdByte v) := by
  rw [fieldByte]
  split
  · next hv => rw [decide_eq_true hv, toBcd_of_le (hv.2.trans hhi), givenByte_true]
  · next hv => rw [decide_eq_false hv, givenByte_false]

/-- `fieldByte_eq` for a range that starts at 0. -/
theorem fieldByte_zero_eq {hi : Nat} (hhi : hi ≤ 99) (v : Byte) :
    fieldByte 0 hi v = givenByte (decide (v.toNat ≤ hi)) (bcdByte v) := by
  simpa using fieldByte_eq (lo := 0) hhi v

theorem secondsByte_eq (halted : Bool) (v : Byte) :
    secondsByte halted v =
      givenByte (decide (v.toNat ≤ 59)) (bcdByte v ||| (if halted then 0x80 else 0x00)) := by
  rw [secondsByte, fieldByte_zero_eq (by decide)]
  cases decide (v.toNat ≤ 59) <;> cases halted <;> simp

theorem hour12Byte_of_le {hour : Byte} (h : hour.toNat ≤ 99) (pm : Bool) :
    hour12Byte hour pm = some (0x40 ||| (if pm then 0x20 else 0x00) ||| bcdByte hour) := by
  rw [hour12Byte, toBcd_of_le h]
  rfl

/-- The hours byte in both modes; in 12-hour mode the clamp leaves an hour of at most 11 (42_time_commit.md R143). -/
theorem hoursByte_eq (use24 : Bool) (hour : Byte) (pm : Bool) :
    hoursByte use24 hour pm =
      givenByte (decide ((use24 = true ∨ 1 ≤ hour.toNat) ∧ hour.toNat ≤ 23)) (hoursFormula use24 hour pm) := by
  cases use24 with
  | true => simp [hoursByte, hoursFormula, fieldByte_zero_eq]
  | false =>
    by_cases hrange : 1 ≤ hour.toNat ∧ hour.toNat ≤ 23
    · by_cases hclamp : 12 < hour.toNat
      · have hle : (hour - 12).toNat ≤ 99 := by bv_omega
        simpa [hoursByte, hoursFormula, hrange, hclamp] using hour12Byte_of_le hle true
      · have hle : hour.toNat ≤ 99 := by omega
        simpa [hoursByte, hoursFormula, hrange, hclamp] using hour12Byte_of_le hle pm
    · simp [hoursByte, hrange]

/-! ### The whole frame -/

/-- The model's frame is the spec's formulas where the spec gives the byte (42_time_commit.md R145). -/
theorem writeFrame_eq_zipWith (t : TimeArgs) (pm halted use24 : Bool) (pcb : Byte) :
    writeFrame t pm halted use24 pcb =
      List.zipWith givenByte (frameGiven t use24) (frameFormula t pm halted use24 pcb) := by
  rw [writeFrame, secondsByte_eq, hoursByte_eq, fieldByte_zero_eq (by decide), fieldByte_zero_eq (by decide)]
  simp only [fieldByte_eq, Nat.reduceLeDiff]
  rfl

theorem frameGiven_of_inRange {t : TimeArgs} {use24 : Bool} (h : TimeInRange t use24) :
    frameGiven t use24 = List.replicate 8 true :=
  List.eq_replicate_of_mem h

theorem writeFrame_of_inRange {t : TimeArgs} {use24 : Bool} (h : TimeInRange t use24) (pm halted : Bool)
    (pcb : Byte) :
    writeFrame t pm halted use24 pcb = (frameFormula t pm halted use24 pcb).map some := by
  rw [writeFrame_eq_zipWith, frameGiven_of_inRange h]
  rfl

theorem writeFrame_getElem?_of_frameGiven {t : TimeArgs} {use24 : Bool} {k : Nat} {given : Bool}
    (h : (frameGiven t use24)[k]? = some given) (pm halted : Bool) (pcb : Byte) :
    ∃ b, (frameFormula t pm halted use24 pcb)[k]? = some b ∧
      (writeFrame t pm halted use24 pcb)[k]? = some (givenByte given b) := by
  have hk : k < (frameFormula t pm halted use24 pcb).length := (List.getElem?_eq_some_iff.mp h).1
  refine ⟨_, List.getElem?_eq_getElem hk, ?_⟩
  rw [writeFrame_eq_zipWith, List.getElem?_zipWith, h, List.getElem?_eq_getElem hk]

theorem unspecifiedCount_zipWith_givenByte {gs : List Bool} {bs : List Byte} (h : gs.length ≤ bs.length) :
    unspecifiedCount (List.zipWith givenByte gs bs) = gs.count false := by
  induction gs generalizing bs with
  | nil => rfl
  | cons g gs ih =>
    cases bs with
    | nil => simp at h
    | cons b bs =>
      have htail := ih (Nat.le_of_succ_le_succ h)
      rw [unspecifiedCount] at htail ⊢
      cases g <;> simp [htail]

theorem unspecifiedCount_writeFrame (t : TimeArgs) (pm halted use24 : Bool) (pcb : Byte) :
    unspecifiedCount (writeFrame t pm halted use24 pcb) = (frameGiven t use24).count false := by
  rw [writeFrame_eq_zipWith]
  exact unspecifiedCount_zipWith_givenByte (Nat.le_refl 8)

/-! ### The frame a commit writes -/

/-- The eight bytes COMMIT puts on the bus: the frame with its unspecified bytes drawn. -/
def State.committedFrame (s : State) (t : TimeArgs) (pm : Bool) : List Byte :=
  fillDraws (writeFrame t pm s.halted s.use24 s.pcb) s.draws

theorem State.committedFrame_length (s : State) (t : TimeArgs) (pm : Bool) : (s.committedFrame t pm).length = 8 := by
  rw [State.committedFrame, fillDraws_length, writeFrame_length]

theorem State.committedFrame_of_inRange {s : State} {t : TimeArgs} (h : TimeInRange t s.use24) (pm : Bool) :
    s.committedFrame t pm = frameFormula t pm s.halted s.use24 s.pcb := by
  rw [State.committedFrame, writeFrame_of_inRange h, fillDraws_map_some]

theorem State.committedFrame_given {s : State} {t : TimeArgs} {k : Nat}
    (h : (frameGiven t s.use24)[k]? = some true) (pm : Bool) :
    (s.committedFrame t pm)[k]? = (frameFormula t pm s.halted s.use24 s.pcb)[k]? := by
  obtain ⟨b, hformula, hframe⟩ := writeFrame_getElem?_of_frameGiven h pm s.halted s.pcb
  rw [hformula]
  exact fillDraws_some hframe s.draws

theorem State.committedFrame_notGiven {s : State} {t : TimeArgs} {k : Nat}
    (h : (frameGiven t s.use24)[k]? = some false) (pm : Bool) :
    ∃ n, s.draws ≤ n ∧ (s.committedFrame t pm)[k]? = some (Config.unspecified8 n) := by
  obtain ⟨b, -, hframe⟩ := writeFrame_getElem?_of_frameGiven h pm s.halted s.pcb
  obtain ⟨n, hn, -, hbyte⟩ := fillDraws_none hframe s.draws
  exact ⟨n, hn, hbyte⟩

/-! ### What each command does -/

/-- COMMIT for any operands: one write of the frame at 0x00, `ACB <- PCB`, one draw for each byte the spec does not
give (42_time_commit.md R145, R146, R148). -/
theorem exec_commit (s : State) (t : TimeArgs) (pm : Bool) :
    exec (.commit t pm) s = .next { s with
      acb := s.pcb
      mem := Mem.writeList s.mem 0x00 (s.committedFrame t pm)
      ptr := 8
      phase := .idle
      trace := s.trace ++ ([.begin 0x68, .write 0x00] ++ (s.committedFrame t pm).map .write ++ [.stop])
      responses := s.responses ++ [0x00]
      draws := s.draws + (frameGiven t s.use24).count false } := by
  have hptr : s.ptrAfter Config.clockBase (s.committedFrame t pm).length = 8 := by
    rw [State.committedFrame_length]
    rfl
  rw [exec, execCommit, State.commitFrame_eq, unspecifiedCount_writeFrame, ← State.committedFrame, State.afterWrite,
    hptr]
  rfl

theorem exec_commit24 (s : State) (t : TimeArgs) :
    exec (.commit24 t) s = exec (.commit t false) { s with use24 := true } := rfl

/-- The step on COMMIT's bytes: the isPM byte is its one typed operand (42_time_commit.md R146). -/
theorem step_of_commitBytes {s : State} {t : TimeArgs} {pm : Byte} {rest : List Byte}
    (hs : s.input = Opcode.commit.byte :: (t.bytes ++ pm :: rest)) :
    step s = if pm.toNat ≤ 1 then exec (.commit t (decide (pm = 1))) { s with input := rest }
      else .next { s with input := rest, responses := s.responses ++ [0xFF], illegals := s.illegals + 1 } := by
  have hread := boolOfByte_eq_ite pm
  split at hread
  · next hpm => rw [if_pos hpm]; exact step_of_goodOperand .commit hs rfl hread
  · next hpm => rw [if_neg hpm]; exact step_of_badOperand .commit hs rfl hread

/-! ### The obligations -/

/-- Settles O30: in range the frame is the formulas and nothing is drawn. -/
theorem commitWritesTheFrame : Obligations.CommitWritesTheFrame := by
  intro s t pm hrange
  have hdraws : (frameGiven t s.use24).count false = 0 := by
    rw [frameGiven_of_inRange hrange]
    rfl
  rw [exec_commit, State.committedFrame_of_inRange hrange, hdraws]
  rfl

/-- Settles O31: the frame is `State.committedFrame`, each byte given or drawn. -/
theorem commitOutOfRangeOperandFreesOneByte : Obligations.CommitOutOfRangeOperandFreesOneByte :=
  ⟨fun s t pm => ⟨s.committedFrame t pm, s.committedFrame_length t pm,
      fun _ hgiven => State.committedFrame_given hgiven pm,
      fun _ hfree => State.committedFrame_notGiven hfree pm,
      exec_commit s t pm⟩,
    fun _ _ _ _ hs => step_of_commitBytes hs⟩

/-- Settles O32: COMMIT24 is COMMIT with isPM 0 from the state with `F24` set, so `exec_commit` gives its state. -/
theorem commit24ForcesUse24 : Obligations.Commit24ForcesUse24 := by
  refine ⟨fun s t => ?next, fun s t rest hs => ?step⟩
  case next =>
    have hcommit := exec_commit { s with use24 := true } t false
    exact ⟨_, (exec_commit24 s t).trans hcommit, hcommit, rfl, rfl, rfl, rfl, rfl⟩
  case step =>
    exact step_of_decode_command (by rw [hs]; exact decode_opcode .commit24 (t.bytes ++ rest))

end Sys2Proof.Machine
end

section
/-! PROOFS. The single-register read and the scratch memory (spec 44_scratch_memory.md R180 to R193): what each command
does in range and dropped, the step on its bytes, and what any command can do to the chip's bytes. -/

namespace Sys2Proof

theorem addrOfByte_of_le {a : Byte} (h : a.toNat ≤ 0x3F) : addrOfByte a = some (a.setWidth 6) :=
  if_pos (Nat.lt_succ_of_le h)

/-- Format W reads exactly its data, whatever follows (30_encoding.md R78). -/
theorem readBlock_append (o : Byte) {n : Byte} {data : List Byte} (h : data.length = n.toNat) (rest : List Byte) :
    readBlock (o :: n :: (data ++ rest)) = .command (.mwrb o data) rest := by
  have hlen : n.toNat ≤ (data ++ rest).length := by rw [List.length_append]; omega
  rw [readBlock, if_pos hlen, ← h, List.take_left, List.drop_left]

namespace Machine

/-- `step_of_decode_command` from the opcode and what its operands decode to. -/
theorem step_of_operands {s : State} (op : Opcode) {args rest : List Byte} {i : Instr} (hs : s.input = op.byte :: args)
    (hop : decodeOperands op args = .command i rest) : step s = exec i { s with input := rest } :=
  step_of_decode_command (by rw [hs, decode_opcode, hop])

/-! ### Addresses and ranges -/

theorem not_inRange_of_lt {o extent : Nat} (h : 56 < o + extent) : ¬ inRange o extent = true := by
  rw [inRange_iff]
  omega

theorem chipAddr_toByte_toNat (a : ChipAddr) : (a.setWidth 8 : Byte).toNat = a.toNat :=
  BitVec.toNat_setWidth_of_le (by decide)

/-- The pointer after one byte at a chip address: one further, `PTR_WRAP` after 0x3F (20_memory.md R54). -/
theorem State.ptrAfter_one (s : State) (a : ChipAddr) :
    s.ptrAfter (a.setWidth 8) 1 = if a.toNat = 0x3F then s.params.ptrWrap else a + 1 := by
  have hlt : a.toNat < 64 := a.isLt
  rw [State.ptrAfter, chipAddr_toByte_toNat]
  by_cases hlast : a.toNat = 0x3F
  · rw [if_pos hlast, if_neg (by simp [hlast])]
  · have hnext : BitVec.ofNat 6 (a.toNat + 1) = a + 1 := by
      rw [BitVec.ofNat_add, BitVec.ofNat_toNat, BitVec.setWidth_eq]
      rfl
    rw [if_neg hlast, if_pos (by simp only [Config.addrSpace]; omega), hnext]

/-! ### What the reads do -/

theorem exec_rdReg (s : State) (a : ChipAddr) :
    exec (.rdReg a) s = .next ((s.afterRead (a.setWidth 8) 1).done [s.answer (a.setWidth 8) 0]) := by
  have ha : (a.setWidth 8 : Byte).toNat < 64 := by rw [chipAddr_toByte_toNat]; exact a.isLt
  rw [exec, execRdReg, State.rdReg_eq s ha]

/-- RDTIME reads the whole frame and draws what it cannot decode (43_time_read.md R166). -/
theorem exec_rdTime (s : State) :
    exec .rdTime s = .next
      ((((s.afterRead 0x00 8).draw (readPayload (s.answers 0x00 8))).2.setAcb ((s.answers 0x00 8).getD 7 0)).done
        ((s.afterRead 0x00 8).draw (readPayload (s.answers 0x00 8))).1) := by
  rw [exec, execRdTime, State.memRead_eq s (by decide) (by decide)]

theorem exec_mrd1_of_inRange {o : Byte} (h : o.toNat + 1 ≤ 56) (s : State) :
    exec (.mrd1 o) s = .next ((s.afterRead (8 + o) 1).done [s.answer (8 + o) 0]) := by
  rw [exec, execMrd1, if_pos (inRange_iff.mpr h), State.rdReg_eq s (userAddr_lt h), userAddr_toByte]

theorem exec_mrd1_of_outOfRange {o : Byte} (h : 56 < o.toNat + 1) (s : State) :
    exec (.mrd1 o) s = .next { s with
      responses := s.responses ++ [0x00, Config.unspecified8 s.draws], draws := s.draws + 1 } := by
  rw [exec, execMrd1, if_neg (not_inRange_of_lt h)]
  rfl

/-- MRDB in range answers the bytes of one read of `n`, whatever its segments. -/
theorem exec_mrdb_of_inRange {o n : Byte} (h : o.toNat + n.toNat ≤ 56) (s : State) :
    exec (.mrdb o n) s =
      .next ((readSegments (segments o.toNat n.toNat) s).2.done (s.answers (8 + o) n.toNat)) := by
  rw [exec, execMrdb, if_pos (inRange_iff.mpr h), ← userAddr_toByte, ← readSegments_bytes h]

theorem exec_mrdb_of_outOfRange {o n : Byte} (h : 56 < o.toNat + n.toNat) (s : State) :
    exec (.mrdb o n) s = .next { s with responses := s.responses ++ [0x00] } := by
  rw [exec, execMrdb, if_neg (not_inRange_of_lt h)]
  rfl

/-! ### What the writes do -/

theorem exec_mwr1_of_inRange {o : Byte} (h : o.toNat + 1 ≤ 56) (d : Byte) (s : State) :
    exec (.mwr1 o d) s = .next ((s.afterWrite (8 + o) [d]).done []) := by
  have ha := userAddr_lt h
  rw [exec, execMwr1, if_pos (inRange_iff.mpr h), State.memWrite_eq s (v := [d]) ha ha, userAddr_toByte]

theorem exec_mwr1_of_outOfRange {o : Byte} (h : 56 < o.toNat + 1) (d : Byte) (s : State) :
    exec (.mwr1 o d) s = .next { s with responses := s.responses ++ [0x00] } := by
  rw [exec, execMwr1, if_neg (not_inRange_of_lt h)]
  rfl

theorem exec_mwrb_of_inRange {o : Byte} {data : List Byte} (h : o.toNat + data.length ≤ 56) (s : State) :
    exec (.mwrb o data) s = .next ((writeSegments (segments o.toNat data.length) data s).done []) := by
  rw [exec, execMwrb, if_pos (inRange_iff.mpr h)]

theorem exec_mwrb_of_outOfRange {o : Byte} {data : List Byte} (h : 56 < o.toNat + data.length) (s : State) :
    exec (.mwrb o data) s = .next { s with responses := s.responses ++ [0x00] } := by
  rw [exec, execMwrb, if_neg (not_inRange_of_lt h)]
  rfl

/-! ### What any command can do to the chip's bytes -/

theorem readSegments_mem {o n : Nat} (h : o + n ≤ 56) (s : State) :
    (readSegments (segments o n) s).2.mem = s.mem := by
  rw [readSegments_eq h]
  split_ifs <;> rfl

/-- The segments of a block write store its data as one run of bytes (44_scratch_memory.md R191). -/
theorem writeSegments_mem {o : Nat} {data : List Byte} (h : o + data.length ≤ 56) (s : State) :
    (writeSegments (segments o data.length) data s).mem = Mem.writeList s.mem (8 + o) data := by
  rw [writeSegments_eq h]
  split_ifs with hnone hone
  · rw [List.eq_nil_of_length_eq_zero hnone]
    rfl
  · show Mem.writeList s.mem (userAddr o).toNat data = _
    rw [userAddr_toNat (by omega)]
  · show Mem.writeList (Mem.writeList s.mem (userAddr o).toNat (data.take 32)) (userAddr (o + 32)).toNat
      (data.drop 32) = _
    have hfirst : (data.take 32).length = 32 := List.length_take_of_le (by omega)
    rw [userAddr_toNat (by omega), userAddr_toNat (by omega), ← Nat.add_assoc, ← congrArg (8 + o + ·) hfirst,
      ← Mem.writeList_append, List.take_append_drop]

/-- The command is one of the two whole-frame commits. -/
def IsCommit (i : Instr) : Prop := (∃ x pm, i = .commit x pm) ∨ ∃ x, i = .commit24 x

/-- From `s` to `t` eight bytes were written at 0x00 in one transaction (42_time_commit.md R146). -/
def WroteFrame (s t : State) : Prop :=
  ∃ frame : List Byte, frame.length = 8 ∧
    t.trace = s.trace ++ ([.begin 0x68, .write 0x00] ++ frame.map .write ++ [.stop]) ∧
    t.mem = Mem.writeList s.mem 0 frame

/-- From `s` to `t` the chip's bytes changed at most by a run of bytes inside scratch memory. -/
def WroteScratch (s t : State) : Prop :=
  ∃ (o : Nat) (data : List Byte), o + data.length ≤ 56 ∧ t.mem = Mem.writeList s.mem (8 + o) data

/-- What a command that has run did to the chip's bytes: nothing, the whole frame, or a run of scratch bytes. -/
abbrev MemEffect (i : Instr) (s t : State) : Prop :=
  t.mem = s.mem ∨ (IsCommit i ∧ WroteFrame s t) ∨ WroteScratch s t

theorem exec_commit_wroteFrame (s : State) (x : TimeArgs) (pm : Bool) :
    ∃ t, exec (.commit x pm) s = .next t ∧ WroteFrame s t :=
  ⟨_, exec_commit s x pm, s.committedFrame x pm, s.committedFrame_length x pm, rfl, rfl⟩

theorem exec_mwr1_memEffect (s : State) (o d : Byte) :
    ∃ t, exec (.mwr1 o d) s = .next t ∧ MemEffect (.mwr1 o d) s t := by
  rcases Nat.lt_or_ge 56 (o.toNat + 1) with hout | hin
  · exact ⟨_, exec_mwr1_of_outOfRange hout d s, .inl rfl⟩
  · refine ⟨_, exec_mwr1_of_inRange hin d s, .inr (.inr ⟨o.toNat, [d], hin, ?_⟩)⟩
    rw [← userAddr_toNat (by omega), userAddr_toByte]
    rfl

theorem exec_mwrb_memEffect (s : State) (o : Byte) (data : List Byte) :
    ∃ t, exec (.mwrb o data) s = .next t ∧ MemEffect (.mwrb o data) s t := by
  rcases Nat.lt_or_ge 56 (o.toNat + data.length) with hout | hin
  · exact ⟨_, exec_mwrb_of_outOfRange hout s, .inl rfl⟩
  · exact ⟨_, exec_mwrb_of_inRange hin s, .inr (.inr ⟨o.toNat, data, hin, writeSegments_mem hin s⟩)⟩

theorem exec_mrd1_memEffect (s : State) (o : Byte) :
    ∃ t, exec (.mrd1 o) s = .next t ∧ MemEffect (.mrd1 o) s t := by
  rcases Nat.lt_or_ge 56 (o.toNat + 1) with hout | hin
  · exact ⟨_, exec_mrd1_of_outOfRange hout s, .inl rfl⟩
  · exact ⟨_, exec_mrd1_of_inRange hin s, .inl rfl⟩

theorem exec_mrdb_memEffect (s : State) (o n : Byte) :
    ∃ t, exec (.mrdb o n) s = .next t ∧ MemEffect (.mrdb o n) s t := by
  rcases Nat.lt_or_ge 56 (o.toNat + n.toNat) with hout | hin
  · exact ⟨_, exec_mrdb_of_outOfRange hout s, .inl rfl⟩
  · exact ⟨_, exec_mrdb_of_inRange hin s, .inl (readSegments_mem hin s)⟩

/-- Every command completes with one of the three effects on the chip's bytes. -/
theorem exec_memEffect (i : Instr) (s : State) : ∃ t, exec i s = .next t ∧ MemEffect i s t := by
  cases i with
  | setHalt b => exact ⟨_, exec_setHalt b s, .inl rfl⟩
  | set24h b => exact ⟨_, exec_set24h b s, .inl rfl⟩
  | sqwEn b => exact ⟨_, exec_sqwEn b s, .inl rfl⟩
  | sqwFreq f => exact ⟨_, exec_sqwFreq f s, .inl rfl⟩
  | sqwPol p => exact ⟨_, exec_sqwPol p s, .inl rfl⟩
  | qHalt => exact ⟨_, exec_qHalt s, .inl rfl⟩
  | q24h => exact ⟨_, exec_q24h s, .inl rfl⟩
  | qSqwEn => exact ⟨_, exec_qSqwEn s, .inl rfl⟩
  | qSqwFreq => exact ⟨_, exec_qSqwFreq s, .inl rfl⟩
  | qSqwPol => exact ⟨_, exec_qSqwPol s, .inl rfl⟩
  | sync => exact ⟨_, exec_sync s, .inl rfl⟩
  | commit x pm =>
    obtain ⟨t, hexec, hframe⟩ := exec_commit_wroteFrame s x pm
    exact ⟨t, hexec, .inr (.inl ⟨.inl ⟨x, pm, rfl⟩, hframe⟩)⟩
  | commit24 x =>
    obtain ⟨t, hexec, hframe⟩ := exec_commit_wroteFrame { s with use24 := true } x false
    exact ⟨t, (exec_commit24 s x).trans hexec, .inr (.inl ⟨.inr ⟨x, rfl⟩, hframe⟩)⟩
  | rdTime => exact ⟨_, exec_rdTime s, .inl rfl⟩
  | rdReg a => exact ⟨_, exec_rdReg s a, .inl rfl⟩
  | mrd1 o => exact exec_mrd1_memEffect s o
  | mrdb o n => exact exec_mrdb_memEffect s o n
  | mwr1 o d => exact exec_mwr1_memEffect s o d
  | mwrb o data => exact exec_mwrb_memEffect s o data
  | d2b v => exact ⟨_, rfl, .inl rfl⟩
  | b2d b => exact ⟨_, rfl, .inl rfl⟩

/-- A run of scratch bytes leaves the addresses below 0x08 as they were (44_scratch_memory.md R182). -/
theorem WroteScratch.read_clock {s t : State} (h : WroteScratch s t) (hwf : Mem.wf s.mem = true) {a : Nat}
    (ha : a < 8) : Mem.read t.mem a = Mem.read s.mem a := by
  obtain ⟨o, data, hrange, hmem⟩ := h
  have hspace : 8 + o + data.length ≤ Config.addrSpace := by simp only [Config.addrSpace]; omega
  rw [hmem, Mem.read_writeList hwf _ _ hspace, if_neg (by omega)]

/-! ### The obligations -/

/-- Settles O40: one read at the chip address; the operand byte is an address exactly up to 0x3F. -/
theorem rdRegAnswersTheChipByte : Obligations.RdRegAnswersTheChipByte := by
  refine ⟨fun s a => ?next, fun s a rest hs => ?step⟩
  case next =>
    rw [exec_rdReg, ← State.ptrAfter_one]
    rfl
  case step =>
    split_ifs with ha
    · exact step_of_goodOperand .rdReg hs rfl (addrOfByte_of_le ha)
    · exact step_of_badOperand .rdReg hs rfl (addrOfByte_eq_none.mpr (Nat.lt_of_not_le ha))

/-- Settles O41: one read at 0x08 + o in range, one drawn byte out of range. -/
theorem mrd1ReadsOneScratchByte : Obligations.Mrd1ReadsOneScratchByte := by
  refine ⟨fun s o => ?next, fun _ _ _ hs => step_of_operands .mrd1 hs rfl⟩
  case next =>
    split_ifs with hin
    · exact exec_mrd1_of_inRange hin s
    · exact exec_mrd1_of_outOfRange (Nat.lt_of_not_le hin) s

/-- Settles O42: one write at 0x08 + o in range, nothing out of range. -/
theorem mwr1WritesOneScratchByte : Obligations.Mwr1WritesOneScratchByte := by
  refine ⟨fun s o d => ?next, fun _ _ _ _ hs => step_of_operands .mwr1 hs rfl⟩
  case next =>
    split_ifs with hin
    · rw [exec_mwr1_of_inRange hin, ← userAddr_toNat (by omega), userAddr_toByte]
      rfl
    · exact exec_mwr1_of_outOfRange (Nat.lt_of_not_le hin) d s

/-- Settles O43: the segments by `readSegments_eq`, the bytes by `readSegments_bytes`. -/
theorem mrdbReadsInSegments : Obligations.MrdbReadsInSegments := by
  refine ⟨fun s o n => ?next, fun _ _ _ _ hs => step_of_operands .mrdb hs rfl⟩
  case next =>
    rcases Nat.lt_or_ge 56 (o.toNat + n.toNat) with hout | hin
    · rw [exec_mrdb_of_outOfRange hout, if_pos (.inl hout)]
    · have hzero : (56 < o.toNat + n.toNat ∨ n = 0) ↔ n.toNat = 0 := by bv_omega
      rw [exec_mrdb_of_inRange hin, readSegments_eq hin, userAddr_toByte, userAddr_toByte_second]
      simp only [hzero]
      split_ifs with hnone hone
      · rw [hnone]
        rfl
      · rfl
      · rfl

/-- Settles O44: the segments by `writeSegments_eq`, the data taken off the port by `readBlock_append`. -/
theorem mwrbWritesInSegments : Obligations.MwrbWritesInSegments := by
  refine ⟨fun s o data => ?next, fun s o n data rest hlen hs => ?step⟩
  case next =>
    rcases Nat.lt_or_ge 56 (o.toNat + data.length) with hout | hin
    · rw [exec_mwrb_of_outOfRange hout, if_pos (.inl hout)]
    · have hzero : (56 < o.toNat + data.length ∨ data = []) ↔ data.length = 0 := by
        rw [← List.length_eq_zero_iff]
        omega
      rw [exec_mwrb_of_inRange hin, writeSegments_eq hin, userAddr_toByte, userAddr_toByte_second]
      simp only [hzero]
      split_ifs <;> rfl
  case step => exact step_of_operands .mwrb hs (readBlock_append o hlen rest)

/-- Settles O47, by the four `_of_outOfRange` lemmas. -/
theorem outOfRangeRequestsAreDropped : Obligations.OutOfRangeRequestsAreDropped :=
  fun s _ _ d _ => ⟨fun h => exec_mrd1_of_outOfRange h s, fun h => exec_mrdb_of_outOfRange h s,
    fun h => exec_mwr1_of_outOfRange h d s, fun h => exec_mwrb_of_outOfRange h s⟩

/-- Settles O49: of the three effects a command can have on the chip's bytes only the frame reaches below 0x08. -/
theorem clockRegistersWrittenOnlyByCommit : Obligations.ClockRegistersWrittenOnlyByCommit := by
  intro i s t a hwf hexec ha hchanged
  obtain ⟨u, hu, heffect⟩ := exec_memEffect i s
  obtain rfl : u = t := by rw [hu] at hexec; cases hexec; rfl
  obtain hkept | hframe | hscratch := heffect
  · exact absurd (by rw [hkept]) hchanged
  · exact hframe
  · exact absurd (hscratch.read_clock hwf ha) hchanged

end Machine

end Sys2Proof
end

section
/-! PROOFS. The BCD conversion commands (spec 45_bcd_conversion.md R200 to R206): the two functions on and off their
domains, what each command answers, and the round trip from the decimal side. -/

namespace Sys2Proof.Machine

/-! ### The two functions -/

theorem toBcd_of_gt {v : Byte} (h : 99 < v.toNat) : toBcd v = none := if_neg (Nat.not_le_of_gt h)

@[simp] theorem validBcd_iff {b : Byte} : validBcd b = true ↔ IsBcd b := by
  simp [validBcd]

theorem ofBcd_of_isBcd {b : Byte} (h : IsBcd b) : ofBcd b = some (bcdValue b) := if_pos (validBcd_iff.mpr h)

theorem ofBcd_of_not_isBcd {b : Byte} (h : ¬ IsBcd b) : ofBcd b = none := if_neg (mt validBcd_iff.mp h)

/-- The encoder's formula fits a byte on its domain (45_bcd_conversion.md R200). -/
theorem bcdByte_toNat {v : Byte} (h : v.toNat ≤ 99) : (bcdByte v).toNat = v.toNat / 10 * 16 + v.toNat % 10 := by
  rw [bcdByte, BitVec.toNat_ofNat, Nat.mod_eq_of_lt (by omega)]

/-- The high nibble of an encoded value is its tens digit (45_bcd_conversion.md R200). -/
theorem bcdByte_tens {v : Byte} (h : v.toNat ≤ 99) : (bcdByte v).toNat / 16 = v.toNat / 10 := by
  rw [bcdByte_toNat h]
  omega

/-- The low nibble of an encoded value is its units digit (45_bcd_conversion.md R200). -/
theorem bcdByte_units {v : Byte} (h : v.toNat ≤ 99) : (bcdByte v).toNat % 16 = v.toNat % 10 := by
  rw [bcdByte_toNat h]
  omega

theorem isBcd_bcdByte {v : Byte} (h : v.toNat ≤ 99) : IsBcd (bcdByte v) := by
  rw [IsBcd, bcdByte_tens h, bcdByte_units h]
  omega

/-- Ten times the tens digit and the units digit are the value again (45_bcd_conversion.md R204). -/
theorem bcdValue_bcdByte {v : Byte} (h : v.toNat ≤ 99) : bcdValue (bcdByte v) = v := by
  rw [bcdValue, bcdByte_tens h, bcdByte_units h, Nat.div_add_mod', BitVec.ofNat_toNat, BitVec.setWidth_eq]

/-! ### What each command answers -/

theorem exec_d2b_of_le {v : Byte} (h : v.toNat ≤ 99) (s : State) :
    exec (.d2b v) s = .next { s with responses := s.responses ++ [0x00, bcdByte v] } := by
  rw [exec, execD2b, toBcd_of_le h]
  rfl

theorem exec_d2b_of_gt {v : Byte} (h : 99 < v.toNat) (s : State) :
    exec (.d2b v) s = .next { s with
      responses := s.responses ++ [0x00, Config.unspecified8 s.draws], draws := s.draws + 1 } := by
  rw [exec, execD2b, toBcd_of_gt h]
  rfl

theorem exec_b2d_of_isBcd {b : Byte} (h : IsBcd b) (s : State) :
    exec (.b2d b) s = .next { s with responses := s.responses ++ [0x00, bcdValue b] } := by
  rw [exec, execB2d, ofBcd_of_isBcd h]
  rfl

theorem exec_b2d_of_not_isBcd {b : Byte} (h : ¬ IsBcd b) (s : State) :
    exec (.b2d b) s = .next { s with
      responses := s.responses ++ [0x00, Config.unspecified8 s.draws], draws := s.draws + 1 } := by
  rw [exec, execB2d, ofBcd_of_not_isBcd h]
  rfl

/-! ### The obligations -/

/-- Settles O50: the encoder's formula up to 99, one drawn byte above. -/
theorem d2bEncodes : Obligations.D2bEncodes := by
  refine ⟨fun s v => ?next, fun _ _ _ hs => step_of_operands .d2b hs rfl⟩
  case next =>
    split_ifs with hv
    · exact exec_d2b_of_le hv s
    · exact exec_d2b_of_gt (Nat.lt_of_not_le hv) s

/-- Settles O51: the decoder's formula on a BCD byte, one drawn byte otherwise. -/
theorem b2dDecodes : Obligations.B2dDecodes := by
  refine ⟨fun s b => ?next, fun _ _ _ hs => step_of_operands .b2d hs rfl⟩
  case next =>
    split_ifs with hb
    · exact exec_b2d_of_isBcd hb s
    · exact exec_b2d_of_not_isBcd hb s

/-- Settles O52: what D2B answers is a BCD byte, and its value is the operand by `bcdValue_bcdByte`. -/
theorem bcdCommandsRoundTrip : Obligations.BcdCommandsRoundTrip := by
  intro s t v hv hexec
  rw [exec_d2b_of_le hv] at hexec
  cases hexec
  refine ⟨bcdByte v, _, rfl, exec_b2d_of_isBcd (isBcd_bcdByte hv) _, ?_⟩
  rw [bcdValue_bcdByte hv]

end Sys2Proof.Machine
end

section
/-! PROOFS. IllegalCommand and the command after it (spec 60_exceptions.md R221): the bytes a refusal takes off the
port, for each reason, and that the decoder reads any command back from its bytes, also right after a refusal. -/

namespace Sys2Proof

/-! ### A command is read back from its bytes -/

@[simp] theorem checked_some (op : Opcode) (i : Instr) (rest : List Byte) :
    checked op (some i) rest = .command i rest := rfl

/-- The operands of a well-formed command are read back, whatever follows them (30_encoding.md R71): a typed operand by
its reader's inverse, MWRB's data by its length byte. -/
theorem decodeOperands_operandBytes {i : Instr} (hwf : i.wf = true) (rest : List Byte) :
    decodeOperands i.opcode (i.operandBytes ++ rest) = .command i rest := by
  cases i with
  | setHalt x | set24h x | sqwEn x | sqwPol x | sqwFreq x | rdReg x =>
    simp [Instr.opcode, Instr.operandBytes, decodeOperands, readTyped]
  | commit t pm => simp [Instr.opcode, Instr.operandBytes, TimeArgs.bytes, decodeOperands, readCommit]
  | mwrb o data =>
    have hlen : data.length ≤ 255 := of_decide_eq_true hwf
    have hbyte : data.length = (BitVec.ofNat 8 data.length).toNat := by
      rw [BitVec.toNat_ofNat, Nat.mod_eq_of_lt (by omega)]
    exact readBlock_append o hbyte rest
  | qHalt | q24h | qSqwEn | qSqwFreq | qSqwPol | sync | rdTime | commit24 | mrd1 | mrdb | mwr1 | d2b | b2d => rfl

theorem decode_encode_append {i : Instr} (hwf : i.wf = true) (rest : List Byte) :
    decode (encode i ++ rest) = .command i rest := by
  rw [encode, List.cons_append, decode_opcode, decodeOperands_operandBytes hwf]

/-! ### The bytes a refusal consumes -/

/-- If `d`, the verdict on opcode `op` with `args` after it, is a refusal, then its reason is a bad operand of `op`, and
the bytes it takes are the rest of the command's fixed length (30_encoding.md R76 (b)). -/
def RefusesWholeCommand (op : Opcode) (args : List Byte) (d : Decoded) : Prop :=
  ∀ why rest, d = .illegal why rest →
    why = .badOperand op ∧ ∃ operands, args = operands ++ rest ∧ operands.length + 1 = op.headLength

/-- The one way to refuse: a typed operand that reads as no value, checked once the operand bytes are read. -/
theorem refusesWholeCommand_checked {op : Opcode} {operands : List Byte} (hlen : operands.length + 1 = op.headLength)
    (i : Option Instr) (rest : List Byte) : RefusesWholeCommand op (operands ++ rest) (checked op i rest) := by
  cases i with
  | some i => nofun
  | none =>
    rintro why rest' ⟨⟩
    exact ⟨rfl, operands, rfl, hlen⟩

theorem refusesWholeCommand_readTyped {op : Opcode} (hlen : op.headLength = 2) (mk : Byte → Option Instr)
    (args : List Byte) : RefusesWholeCommand op args (readTyped op mk args) := by
  cases args with
  | nil => nofun
  | cons a rest => exact refusesWholeCommand_checked (operands := [a]) hlen.symm (mk a) rest

theorem refusesWholeCommand_readCommit (args : List Byte) : RefusesWholeCommand .commit args (readCommit args) := by
  unfold readCommit
  split
  · next s m h dw dm mo y pm rest =>
    exact refusesWholeCommand_checked (operands := [s, m, h, dw, dm, mo, y, pm]) rfl _ rest
  · nofun

theorem refusesWholeCommand_readValue (op : Opcode) (mk : Byte → Instr) (args : List Byte) :
    RefusesWholeCommand op args (readValue mk args) := by
  unfold readValue
  split <;> nofun

theorem refusesWholeCommand_readPair (op : Opcode) (mk : Byte → Byte → Instr) (args : List Byte) :
    RefusesWholeCommand op args (readPair mk args) := by
  unfold readPair
  split <;> nofun

theorem refusesWholeCommand_readCommit24 (op : Opcode) (args : List Byte) :
    RefusesWholeCommand op args (readCommit24 args) := by
  unfold readCommit24
  split <;> nofun

theorem refusesWholeCommand_readBlock (op : Opcode) (args : List Byte) :
    RefusesWholeCommand op args (readBlock args) := by
  unfold readBlock
  split
  · split <;> nofun
  · nofun

theorem refusesWholeCommand_decodeOperands (op : Opcode) (args : List Byte) :
    RefusesWholeCommand op args (decodeOperands op args) := by
  cases op with
  | setHalt | set24h | sqwEn | sqwFreq | sqwPol | rdReg => exact refusesWholeCommand_readTyped rfl _ args
  | commit => exact refusesWholeCommand_readCommit args
  | commit24 => exact refusesWholeCommand_readCommit24 _ args
  | mrd1 | d2b | b2d => exact refusesWholeCommand_readValue _ _ args
  | mrdb | mwr1 => exact refusesWholeCommand_readPair _ _ args
  | mwrb => exact refusesWholeCommand_readBlock _ args
  | qHalt | q24h | qSqwEn | qSqwFreq | qSqwPol | sync | rdTime => nofun

/-- What a refusal is, reason by reason (30_encoding.md R76): one byte gone for an unknown opcode, the whole fixed length
for a bad operand. -/
theorem decode_illegal_cases {bs rest : List Byte} {why : IllegalReason} (h : decode bs = .illegal why rest) :
    (∃ b, why = .unknownOpcode b ∧ bs = b :: rest) ∨
      ∃ op consumed, why = .badOperand op ∧ bs = consumed ++ rest ∧ consumed.length = op.headLength := by
  cases bs with
  | nil => cases h
  | cons b args =>
    cases hop : Opcode.ofByte b with
    | none =>
      rw [decode_unknownOpcode hop] at h
      cases h
      exact .inl ⟨b, rfl, rfl⟩
    | some op =>
      rw [← Opcode.byte_of_ofByte hop, decode_opcode] at h
      obtain ⟨hwhy, operands, rfl, hlen⟩ := refusesWholeCommand_decodeOperands op args why rest h
      exact .inr ⟨op, b :: operands, hwhy, rfl, hlen⟩

namespace Machine

/-! ### The obligation -/

/-- Settles O6: the refusal's one step by `step_of_decode_illegal`, the bytes it took by `decode_illegal_cases`, and the
command after it by `decode_encode_append`, since the state it leaves has those bytes on its port. -/
theorem illegalCommandHasNoOtherEffect : Obligations.IllegalCommandHasNoOtherEffect := by
  intro s why rest h
  refine ⟨_, step_of_decode_illegal h, rfl, ?unknownOpcode, ?badOperand, ?nextCommand⟩
  case unknownOpcode =>
    rintro b rfl
    obtain ⟨b', hwhy, hs⟩ | ⟨op, consumed, hwhy, -, -⟩ := decode_illegal_cases h
    · cases hwhy; exact hs
    · cases hwhy
  case badOperand =>
    rintro op rfl
    obtain ⟨b', hwhy, -⟩ | ⟨op', consumed, hwhy, hs, hlen⟩ := decode_illegal_cases h
    · cases hwhy
    · cases hwhy; exact ⟨consumed, hs, hlen⟩
  case nextCommand =>
    rintro i rest' hwf rfl
    exact step_of_decode_command (decode_encode_append hwf rest')

end Machine

end Sys2Proof
end

section
/-! PROOFS. Reset (spec 70_reset_and_hazards.md R240): what a reset sets, and that the codec then waits, because the
command port a reset leaves is empty and an empty port has no step. -/

namespace Sys2Proof.Machine

theorem step_of_emptyPort {s : State} (h : s.input = []) : step s = .fault .runEnded := by
  rw [step, h]
  rfl

theorem State.resetWith_input (pcb acb : Byte) (halted use24 : Bool) (chip : ChipState) (params : Params) :
    (State.resetWith pcb acb halted use24 chip params).input = [] := rfl

/-! ### The obligation -/

/-- Settles O9: the fields as `State.resetWith` sets them, and no step by `step_of_emptyPort`. -/
theorem resetLeavesOpenValues : Obligations.ResetLeavesOpenValues := by
  intro pcb acb halted use24 chip params s
  have hwait : step s = .fault .runEnded :=
    step_of_emptyPort (State.resetWith_input pcb acb halted use24 chip params)
  refine ⟨rfl, rfl, rfl, rfl, rfl, rfl, rfl, rfl, fun t ht => ?_⟩
  rw [hwait] at ht
  cases ht

end Sys2Proof.Machine
end

section
/-! PROOFS. The command encoding in both directions (spec 30_encoding.md R70 to R78): bytes that decode to a command are
its encoding, and a verdict once reached is not changed by the bytes that arrive after it. -/

namespace Sys2Proof

/-! ### Bytes that decode to a command -/

/-- If `d`, the verdict on opcode `op` with `args` after it, is a command, then `args` begin with its operand bytes. -/
def SpellsCommand (op : Opcode) (args : List Byte) (d : Decoded) : Prop :=
  ∀ i rest, d = .command i rest → i.wf = true ∧ i.opcode = op ∧ args = i.operandBytes ++ rest

/-- A verdict that is the command whose operand bytes were read. -/
theorem spellsCommand_of_command {i : Instr} {rest : List Byte} (hwf : i.wf = true) :
    SpellsCommand i.opcode (i.operandBytes ++ rest) (.command i rest) := by
  rintro j rest' ⟨⟩
  exact ⟨hwf, rfl, rfl⟩

/-- A verdict on a typed operand, from what each value the reader gives is spelled by. -/
theorem spellsCommand_checked {α : Type} {op : Opcode} {operand : Option α} {mk : α → Instr}
    {args rest : List Byte}
    (h : ∀ x, operand = some x → (mk x).wf = true ∧ (mk x).opcode = op ∧ args = (mk x).operandBytes ++ rest) :
    SpellsCommand op args (checked op (operand.map mk) rest) := by
  cases operand with
  | none => nofun
  | some x =>
    rintro i rest' ⟨⟩
    exact h x rfl

theorem spellsCommand_readTyped {α : Type} {op : Opcode} {operand : Byte → Option α} {mk : α → Instr}
    {args : List Byte}
    (h : ∀ a x, operand a = some x → (mk x).wf = true ∧ (mk x).opcode = op ∧ (mk x).operandBytes = [a]) :
    SpellsCommand op args (readTyped op (fun a => (operand a).map mk) args) := by
  cases args with
  | nil => nofun
  | cons a rest =>
    refine spellsCommand_checked fun x hx => ?_
    obtain ⟨hwf, hop, hbytes⟩ := h a x hx
    exact ⟨hwf, hop, by rw [hbytes]; rfl⟩

theorem spellsCommand_readCommit (args : List Byte) : SpellsCommand .commit args (readCommit args) := by
  unfold readCommit
  split
  · next s m h dw dm mo y pm rest =>
    refine spellsCommand_checked fun b hb => ⟨rfl, rfl, ?_⟩
    rw [ofBool_of_boolOfByte hb]
    rfl
  · nofun

theorem spellsCommand_readCommit24 (args : List Byte) : SpellsCommand .commit24 args (readCommit24 args) := by
  unfold readCommit24
  split
  · next s m h dw dm mo y rest => exact spellsCommand_of_command (i := .commit24 ⟨s, m, h, dw, dm, mo, y⟩) rfl
  · nofun

theorem spellsCommand_readValue {op : Opcode} {mk : Byte → Instr} {args : List Byte}
    (h : ∀ a, (mk a).wf = true ∧ (mk a).opcode = op ∧ (mk a).operandBytes = [a]) :
    SpellsCommand op args (readValue mk args) := by
  unfold readValue
  split
  · next a rest =>
    obtain ⟨hwf, rfl, hbytes⟩ := h a
    simpa [hbytes] using spellsCommand_of_command (rest := rest) hwf
  · nofun

theorem spellsCommand_readPair {op : Opcode} {mk : Byte → Byte → Instr} {args : List Byte}
    (h : ∀ a b, (mk a b).wf = true ∧ (mk a b).opcode = op ∧ (mk a b).operandBytes = [a, b]) :
    SpellsCommand op args (readPair mk args) := by
  unfold readPair
  split
  · next a b rest =>
    obtain ⟨hwf, rfl, hbytes⟩ := h a b
    simpa [hbytes] using spellsCommand_of_command (rest := rest) hwf
  · nofun

/-- The data MWRB takes is as long as its length byte says, so that byte is the one its encoding has. -/
theorem spellsCommand_readBlock (args : List Byte) : SpellsCommand .mwrb args (readBlock args) := by
  unfold readBlock
  split
  · next o n rest =>
    split
    · next hlen =>
      have htake : (rest.take n.toNat).length = n.toNat := List.length_take_of_le hlen
      have hwf : (Instr.mwrb o (rest.take n.toNat)).wf = true := by
        rw [Instr.wf, htake]
        exact decide_eq_true (Nat.le_of_lt_succ n.isLt)
      have hspells := spellsCommand_of_command (rest := rest.drop n.toNat) hwf
      simpa [Instr.opcode, Instr.operandBytes, htake] using hspells
    · nofun
  · nofun

theorem spellsCommand_decodeOperands (op : Opcode) (args : List Byte) :
    SpellsCommand op args (decodeOperands op args) := by
  cases op with
  | setHalt | set24h | sqwEn | sqwPol =>
    exact spellsCommand_readTyped fun a x hx => ⟨rfl, rfl, by rw [ofBool_of_boolOfByte hx]; rfl⟩
  | sqwFreq => exact spellsCommand_readTyped fun a x hx => ⟨rfl, rfl, by rw [freqByte_of_freqOfByte hx]; rfl⟩
  | rdReg => exact spellsCommand_readTyped fun a x hx => ⟨rfl, rfl, by rw [setWidth_of_addrOfByte hx]; rfl⟩
  | qHalt => exact spellsCommand_of_command (i := .qHalt) rfl
  | q24h => exact spellsCommand_of_command (i := .q24h) rfl
  | qSqwEn => exact spellsCommand_of_command (i := .qSqwEn) rfl
  | qSqwFreq => exact spellsCommand_of_command (i := .qSqwFreq) rfl
  | qSqwPol => exact spellsCommand_of_command (i := .qSqwPol) rfl
  | sync => exact spellsCommand_of_command (i := .sync) rfl
  | rdTime => exact spellsCommand_of_command (i := .rdTime) rfl
  | commit => exact spellsCommand_readCommit args
  | commit24 => exact spellsCommand_readCommit24 args
  | mrd1 | d2b | b2d => exact spellsCommand_readValue fun _ => ⟨rfl, rfl, rfl⟩
  | mrdb | mwr1 => exact spellsCommand_readPair fun _ _ => ⟨rfl, rfl, rfl⟩
  | mwrb => exact spellsCommand_readBlock args

/-! ### A verdict and the bytes after it -/

/-- The verdict with further bytes left on the port behind it. -/
def Decoded.before (d : Decoded) (more : List Byte) : Decoded :=
  match d with
  | .command i rest => .command i (rest ++ more)
  | .illegal why rest => .illegal why (rest ++ more)
  | .incomplete => .incomplete
  | .exhausted => .exhausted

@[simp] theorem Decoded.before_command (i : Instr) (rest more : List Byte) :
    (Decoded.command i rest).before more = .command i (rest ++ more) := rfl

@[simp] theorem Decoded.before_illegal (why : IllegalReason) (rest more : List Byte) :
    (Decoded.illegal why rest).before more = .illegal why (rest ++ more) := rfl

theorem checked_append (op : Opcode) (i : Option Instr) (rest more : List Byte) :
    checked op i (rest ++ more) = (checked op i rest).before more := by
  cases i <;> rfl

/-- A reader of operands whose verdict, once it is not `incomplete`, stays the same when more bytes arrive. -/
def Settled (read : List Byte → Decoded) : Prop :=
  ∀ args more, read args ≠ .incomplete → read (args ++ more) = (read args).before more

theorem settled_readTyped (op : Opcode) (mk : Byte → Option Instr) : Settled (readTyped op mk) := by
  intro args more h
  cases args with
  | nil => exact absurd rfl h
  | cons a rest => exact checked_append op (mk a) rest more

theorem settled_readValue (mk : Byte → Instr) : Settled (readValue mk) := by
  intro args more h
  cases args with
  | nil => exact absurd rfl h
  | cons a rest => rfl

theorem settled_readPair (mk : Byte → Byte → Instr) : Settled (readPair mk) := by
  intro args more h
  rw [readPair.eq_def mk args] at h ⊢
  split at h
  · rfl
  · exact absurd rfl h

theorem settled_readCommit : Settled readCommit := by
  intro args more h
  rw [readCommit.eq_def args] at h ⊢
  split at h
  · exact checked_append _ _ _ more
  · exact absurd rfl h

theorem settled_readCommit24 : Settled readCommit24 := by
  intro args more h
  rw [readCommit24.eq_def args] at h ⊢
  split at h
  · rfl
  · exact absurd rfl h

theorem settled_readBlock : Settled readBlock := by
  intro args more h
  rw [readBlock.eq_def args] at h ⊢
  split at h
  · next o n rest =>
    split at h
    · next hlen =>
      have hmore : n.toNat ≤ (rest ++ more).length := by rw [List.length_append]; omega
      simp only [List.cons_append, readBlock, if_pos hlen, if_pos hmore, Decoded.before_command,
        List.take_append_of_le_length hlen, List.drop_append_of_le_length hlen]
    · exact absurd rfl h
  · exact absurd rfl h

theorem settled_decodeOperands (op : Opcode) : Settled (decodeOperands op) := by
  cases op with
  | setHalt | set24h | sqwEn | sqwFreq | sqwPol | rdReg => exact settled_readTyped _ _
  | commit => exact settled_readCommit
  | commit24 => exact settled_readCommit24
  | mrd1 | d2b | b2d => exact settled_readValue _
  | mrdb | mwr1 => exact settled_readPair _
  | mwrb => exact settled_readBlock
  | qHalt | q24h | qSqwEn | qSqwFreq | qSqwPol | sync | rdTime => exact fun _ _ _ => rfl

/-- Once the decoder has a verdict, the bytes that arrive later do not change it (30_encoding.md R72). -/
theorem decode_append {bs : List Byte} (hne : bs ≠ []) (h : decode bs ≠ .incomplete) (more : List Byte) :
    decode (bs ++ more) = (decode bs).before more := by
  obtain ⟨b, args, rfl⟩ := List.exists_cons_of_ne_nil hne
  cases hop : Opcode.ofByte b with
  | none => rw [List.cons_append, decode_unknownOpcode hop, decode_unknownOpcode hop, Decoded.before_illegal]
  | some op =>
    rw [← Opcode.byte_of_ofByte hop, decode_opcode] at h ⊢
    rw [List.cons_append, decode_opcode]
    exact settled_decodeOperands op args more h

/-- A command's bytes cut short are no command yet and no IllegalCommand: with the missing bytes any such verdict would
be the one on the whole encoding, which leaves no byte over (30_encoding.md R72). -/
theorem decode_incomplete_of_cut {i : Instr} (hwf : i.wf = true) {bs missing : List Byte} (hbs : bs ≠ [])
    (hmissing : missing ≠ []) (hcut : encode i = bs ++ missing) : decode bs = .incomplete := by
  by_contra hverdict
  have hwhole : decode (bs ++ missing) = .command i [] := by
    simpa [← hcut] using decode_encode_append hwf []
  rw [decode_append hbs hverdict] at hwhole
  cases hd : decode bs with
  | command j rest =>
    rw [hd, Decoded.before_command, Decoded.command.injEq, List.append_eq_nil_iff] at hwhole
    exact hmissing hwhole.2.2
  | illegal | incomplete | exhausted =>
    rw [hd] at hwhole
    cases hwhole

namespace Machine

/-! ### The obligations -/

/-- Settles O2, by `decode_encode_append`: the opcode byte names the opcode, and each operand is read back. -/
theorem decodeEncodeRoundTrip : Obligations.DecodeEncodeRoundTrip :=
  fun _ rest hwf => decode_encode_append hwf rest

/-- Settles O3: the first byte is the opcode's, the operand bytes by `spellsCommand_decodeOperands`. -/
theorem decodedBytesAreTheEncoding : Obligations.DecodedBytesAreTheEncoding := by
  intro bs rest i h
  cases bs with
  | nil => cases h
  | cons b args =>
    cases hop : Opcode.ofByte b with
    | none =>
      rw [decode_unknownOpcode hop] at h
      cases h
    | some op =>
      have hbyte := Opcode.byte_of_ofByte hop
      rw [← hbyte, decode_opcode] at h
      obtain ⟨hwf, rfl, rfl⟩ := spellsCommand_decodeOperands op args i rest h
      exact ⟨hwf, by rw [encode, hbyte, List.cons_append]⟩

/-- Settles O7, by `decode_incomplete_of_cut`. -/
theorem incompleteCommandIsStuck : Obligations.IncompleteCommandIsStuck := by
  intro s i missing hwf hinput hmissing hcut
  rw [step, decode_incomplete_of_cut hwf hinput hmissing hcut]

/-- Settles O1, one evaluation of the decoder a word. -/
theorem writtenWordsDecode : Obligations.WrittenWordsDecode := by
  refine ⟨?_, ?_, ?_, ?_, ?_, ?_, ?_, ?_⟩ <;> decide

/-- Settles O4: the decoder reads the command back from its bytes, and the step executes what it reads. -/
theorem stepRunsTheDecodedCommand : Obligations.StepRunsTheDecodedCommand :=
  fun _ _ rest hwf hinput => step_of_decode_command (hinput ▸ decode_encode_append hwf rest)

end Machine

end Sys2Proof
end

section
/-! PROOFS. What every command does, said once: whole legal transactions on the bus, the fields of its row of the write
matrix, the chip bytes it stores to, one response of its table length, and nothing else (spec 00_scope.md R10,
10_state.md R26, 20_memory.md R43 to R49, 30_encoding.md R73). The invariant and the frame statements follow. -/

namespace Sys2Proof.Machine

theorem eq_of_exec {i : Instr} {s t u : State} (ht : exec i s = .next t) (hu : exec i s = .next u) : t = u := by
  rw [ht] at hu
  exact Host.Outcome.next.inj hu

/-! ### Bus transactions -/

/-- From `s` to `t` the codec made the legal transactions `xs` on the bus and did nothing else. -/
structure BusOnly (s t : State) (xs : List Transaction) : Prop where
  legal : ∀ x ∈ xs, x.legal = true
  phase : t.phase = s.phase ∨ t.phase = .idle
  frame : t = { s with
    mem := t.mem, ptr := t.ptr, phase := t.phase, oracle := t.oracle
    trace := s.trace ++ xs.flatMap Transaction.events }

theorem BusOnly.refl (s : State) : BusOnly s s [] where
  legal := nofun
  phase := .inl rfl
  frame := by rw [List.flatMap_nil, List.append_nil]

theorem BusOnly.trans {s t u : State} {xs ys : List Transaction} (h : BusOnly s t xs) (h' : BusOnly t u ys) :
    BusOnly s u (xs ++ ys) where
  legal x hx := (List.mem_append.mp hx).elim (h.legal x) (h'.legal x)
  phase := h'.phase.elim (fun hkept => hkept ▸ h.phase) .inr
  frame := by
    rw [List.flatMap_append, ← List.append_assoc]
    exact h'.frame.trans (by rw [h.frame])

theorem busOnly_afterRead (s : State) {a : Byte} {n : Nat} (hn : 1 ≤ n) (hmax : n ≤ 32) (ha : a.toNat + n ≤ 64) :
    BusOnly s (s.afterRead a n) [.read a (s.answers a n)] where
  legal := by simp [Transaction.legal, hn, hmax, ha]
  phase := .inr rfl
  frame := by simp [State.afterRead, Transaction.events]

theorem busOnly_afterWrite (s : State) {a : Byte} {bs : List Byte} (hn : 1 ≤ bs.length) (hmax : bs.length ≤ 32)
    (ha : a.toNat + bs.length ≤ 64) : BusOnly s (s.afterWrite a bs) [.write a bs] where
  legal := by simp [Transaction.legal, hn, hmax, ha]
  phase := .inr rfl
  frame := by simp [State.afterWrite, Transaction.events]

/-- A block read in range: no transaction, one, or two (44_scratch_memory.md R189, R190). -/
theorem busOnly_readSegments {o n : Nat} (h : o + n ≤ 56) (s : State) :
    ∃ xs, BusOnly s (readSegments (segments o n) s).2 xs := by
  rw [readSegments_eq h]
  split_ifs with hnone hone
  · exact ⟨_, .refl s⟩
  · have ha := userAddr_toNat (o := o) (by omega)
    exact ⟨_, busOnly_afterRead s (by omega) hone (by omega)⟩
  · have ha := userAddr_toNat (o := o) (by omega)
    have hb := userAddr_toNat (o := o + 32) (by omega)
    exact ⟨_, (busOnly_afterRead s (by decide) (by decide) (by omega)).trans
      (busOnly_afterRead _ (by omega) (by omega) (by omega))⟩

/-- A block write in range: no transaction, one, or two (44_scratch_memory.md R189, R191). -/
theorem busOnly_writeSegments {o : Nat} {data : List Byte} (h : o + data.length ≤ 56) (s : State) :
    ∃ xs, BusOnly s (writeSegments (segments o data.length) data s) xs := by
  rw [writeSegments_eq h]
  split_ifs with hnone hone
  · exact ⟨_, .refl s⟩
  · have ha := userAddr_toNat (o := o) (by omega)
    exact ⟨_, busOnly_afterWrite s (by omega) hone (by omega)⟩
  · have ha := userAddr_toNat (o := o) (by omega)
    have hb := userAddr_toNat (o := o + 32) (by omega)
    have hfirst : (data.take 32).length = 32 := List.length_take_of_le (by omega)
    have hsecond : (data.drop 32).length = data.length - 32 := List.length_drop
    exact ⟨_, (busOnly_afterWrite s (by omega) (by omega) (by omega)).trans
      (busOnly_afterWrite _ (by omega) (by omega) (by omega))⟩

/-! ### Fields and chip bytes -/

/-- The value of a codec field after a command: the new one only where its row of the write matrix names the field. -/
def written {α : Type} (i : Instr) (f : Field) (new old : α) : α := if f ∈ mayWrite i then new else old

theorem written_of_notMem {α : Type} {i : Instr} {f : Field} (h : f ∉ mayWrite i) (new old : α) :
    written i f new old = old := if_neg h

/-- From `s` to `t` the chip's bytes changed at most by a run of bytes at addresses the command stores to. -/
def StoredOnly (i : Instr) (s t : State) : Prop :=
  ∃ (a : Nat) (bs : List Byte), a + bs.length ≤ Config.addrSpace ∧
    (∀ x, a ≤ x ∧ x < a + bs.length → storesTo x i = true) ∧ t.mem = Mem.writeList s.mem a bs

theorem storedOnly_of_mem_eq {i : Instr} {s t : State} (h : t.mem = s.mem) : StoredOnly i s t :=
  ⟨0, [], by decide, fun x hx => absurd hx.2 (Nat.not_lt_zero x), h⟩

/-! ### The effect of a command -/

/-- What the command `i` did from `s` to `t`: the transactions `xs`, the payload of its response, its fields and chip
bytes; the input, the parameters and the count of IllegalCommands are as before. -/
structure CommandEffect (i : Instr) (s t : State) (xs : List Transaction) (payload : List Byte) : Prop where
  legal : ∀ x ∈ xs, x.legal = true
  phase : t.phase = s.phase ∨ t.phase = .idle
  payload_length : payload.length = payloadLength i
  stored : StoredOnly i s t
  frame : t = { s with
    pcb := written i .pcb t.pcb s.pcb
    acb := written i .acb t.acb s.acb
    halted := written i .halted t.halted s.halted
    use24 := written i .use24 t.use24 s.use24
    mem := t.mem, ptr := t.ptr, phase := t.phase, oracle := t.oracle, draws := t.draws
    trace := s.trace ++ xs.flatMap Transaction.events
    responses := s.responses ++ 0x00 :: payload }

/-- The command completes with its effect. -/
def Completes (i : Instr) (s : State) : Prop :=
  ∃ t xs payload, exec i s = .next t ∧ CommandEffect i s t xs payload

/-- A command that makes its transactions, then writes its fields and answers. -/
theorem BusOnly.completes {i : Instr} {s t u : State} {xs : List Transaction} {payload : List Byte}
    (h : BusOnly s t xs) (hexec : exec i s = .next u) (hlen : payload.length = payloadLength i)
    (hstored : StoredOnly i s u)
    (hframe : u = { t with
      pcb := written i .pcb u.pcb t.pcb
      acb := written i .acb u.acb t.acb
      halted := written i .halted u.halted t.halted
      use24 := written i .use24 u.use24 t.use24
      draws := u.draws
      responses := t.responses ++ 0x00 :: payload }) : Completes i s := by
  have hmem : u.mem = t.mem := by rw [hframe]
  have hptr : u.ptr = t.ptr := by rw [hframe]
  have hphase : u.phase = t.phase := by rw [hframe]
  have horacle : u.oracle = t.oracle := by rw [hframe]
  refine ⟨u, xs, payload, hexec, h.legal, hphase ▸ h.phase, hlen, hstored, hframe.trans ?_⟩
  rw [hmem, hptr, hphase, horacle, h.frame]

/-- COMMIT as one write transaction. -/
theorem exec_commit_afterWrite (s : State) (x : TimeArgs) (pm : Bool) :
    exec (.commit x pm) s = .next (State.done { s.afterWrite 0x00 (s.committedFrame x pm) with
      acb := s.pcb, draws := s.draws + unspecifiedCount (writeFrame x pm s.halted s.use24 s.pcb) } []) := by
  rw [exec, execCommit, State.commitFrame_eq]
  rfl

theorem busOnly_writeFrame (s : State) {frame : List Byte} (hlen : frame.length = 8) :
    BusOnly s (s.afterWrite 0x00 frame) [.write 0x00 frame] :=
  busOnly_afterWrite s (by rw [hlen]; decide) (by rw [hlen]; decide) (by rw [hlen]; decide)

theorem storedOnly_writeFrame {i : Instr} {s t : State} {frame : List Byte} (hlen : frame.length = 8)
    (hi : ∀ a, a < 8 → storesTo a i = true) (hmem : t.mem = Mem.writeList s.mem 0 frame) : StoredOnly i s t :=
  ⟨0, frame, by rw [hlen]; decide, fun a ha => hi a (by omega), hmem⟩

theorem completes_commit (s : State) (x : TimeArgs) (pm : Bool) : Completes (.commit x pm) s := by
  have hlen := s.committedFrame_length x pm
  have hstored (t : State) := storedOnly_writeFrame (i := .commit x pm) (s := s) (t := t) hlen
    (fun a ha => by simpa [storesTo] using ha)
  exact (busOnly_writeFrame s hlen).completes (exec_commit_afterWrite s x pm) rfl (hstored _ rfl) rfl

/-- COMMIT24 makes the transaction of the COMMIT it stands for (42_time_commit.md R147). -/
theorem completes_commit24 (s : State) (x : TimeArgs) : Completes (.commit24 x) s := by
  have hexec := (exec_commit24 s x).trans (exec_commit_afterWrite { s with use24 := true } x false)
  have hlen := State.committedFrame_length { s with use24 := true } x false
  have hstored (t : State) := storedOnly_writeFrame (i := .commit24 x) (s := s) (t := t) hlen
    (fun a ha => by simpa [storesTo] using ha)
  exact (busOnly_writeFrame s hlen).completes hexec rfl (hstored _ rfl) rfl

theorem completes_mrd1 (s : State) (o : Byte) : Completes (.mrd1 o) s := by
  rcases Nat.lt_or_ge 56 (o.toNat + 1) with hout | hin
  · exact (BusOnly.refl s).completes (exec_mrd1_of_outOfRange hout s) rfl (storedOnly_of_mem_eq rfl) rfl
  · have ha : (8 + o).toNat + 1 ≤ 64 := by bv_omega
    exact (busOnly_afterRead s (by decide) (by decide) ha).completes (exec_mrd1_of_inRange hin s) rfl
      (storedOnly_of_mem_eq rfl) rfl

theorem completes_mrdb (s : State) (o n : Byte) : Completes (.mrdb o n) s := by
  rcases Nat.lt_or_ge 56 (o.toNat + n.toNat) with hout | hin
  · exact (BusOnly.refl s).completes (payload := []) (exec_mrdb_of_outOfRange hout s)
      (if_neg (not_inRange_of_lt hout)).symm (storedOnly_of_mem_eq rfl) rfl
  · obtain ⟨xs, hbus⟩ := busOnly_readSegments hin s
    have hlen : (s.answers (8 + o) n.toNat).length = payloadLength (.mrdb o n) := by
      rw [State.answers_length, payloadLength, if_pos (inRange_iff.mpr hin)]
    exact hbus.completes (exec_mrdb_of_inRange hin s) hlen (storedOnly_of_mem_eq (readSegments_mem hin s)) rfl

theorem completes_mwr1 (s : State) (o d : Byte) : Completes (.mwr1 o d) s := by
  rcases Nat.lt_or_ge 56 (o.toNat + 1) with hout | hin
  · exact (BusOnly.refl s).completes (exec_mwr1_of_outOfRange hout d s) rfl (storedOnly_of_mem_eq rfl) rfl
  · have ha : (8 + o).toNat + 1 ≤ 64 := by bv_omega
    refine (busOnly_afterWrite s (bs := [d]) (Nat.le_refl 1) (Nat.le_add_left 1 31) ha).completes
      (exec_mwr1_of_inRange hin d s) rfl ⟨(8 + o).toNat, [d], ha, fun x hx => ?_, rfl⟩ rfl
    have hx : x = (8 + o).toNat := by rw [List.length_singleton] at hx; omega
    simp [storesTo, inRange_iff.mpr hin, userAddr_toByte, hx]

theorem completes_mwrb (s : State) (o : Byte) (data : List Byte) : Completes (.mwrb o data) s := by
  rcases Nat.lt_or_ge 56 (o.toNat + data.length) with hout | hin
  · exact (BusOnly.refl s).completes (exec_mwrb_of_outOfRange hout s) rfl (storedOnly_of_mem_eq rfl) rfl
  · obtain ⟨xs, hbus⟩ := busOnly_writeSegments hin s
    refine hbus.completes (exec_mwrb_of_inRange hin s) rfl
      ⟨8 + o.toNat, data, by simp only [Config.addrSpace]; omega, fun x hx => ?_, writeSegments_mem hin s⟩ rfl
    simpa [storesTo, inRange_iff.mpr hin, userAddr_toNat (o := o.toNat) (by omega)] using hx

/-- Every command completes, with its effect. -/
theorem completes (i : Instr) (s : State) : Completes i s := by
  have hquiet : ∀ t : State, t.mem = s.mem → StoredOnly i s t := fun _ => storedOnly_of_mem_eq
  cases i with
  | setHalt b => exact (BusOnly.refl s).completes (exec_setHalt b s) rfl (hquiet _ rfl) rfl
  | set24h b => exact (BusOnly.refl s).completes (exec_set24h b s) rfl (hquiet _ rfl) rfl
  | sqwEn b => exact (BusOnly.refl s).completes (exec_sqwEn b s) rfl (hquiet _ rfl) rfl
  | sqwFreq f => exact (BusOnly.refl s).completes (exec_sqwFreq f s) rfl (hquiet _ rfl) rfl
  | sqwPol p => exact (BusOnly.refl s).completes (exec_sqwPol p s) rfl (hquiet _ rfl) rfl
  | qHalt =>
    exact (busOnly_afterRead s (by decide) (by decide) (by decide)).completes (exec_qHalt s) rfl (hquiet _ rfl) rfl
  | q24h =>
    exact (busOnly_afterRead s (by decide) (by decide) (by decide)).completes (exec_q24h s) rfl (hquiet _ rfl) rfl
  | qSqwEn => exact (BusOnly.refl s).completes (exec_qSqwEn s) rfl (hquiet _ rfl) rfl
  | qSqwFreq => exact (BusOnly.refl s).completes (exec_qSqwFreq s) rfl (hquiet _ rfl) rfl
  | qSqwPol => exact (BusOnly.refl s).completes (exec_qSqwPol s) rfl (hquiet _ rfl) rfl
  | sync =>
    have hread (t : State) {a : Byte} (ha : a.toNat + 1 ≤ 64) :=
      busOnly_afterRead t (n := 1) (by decide) (by decide) ha
    exact (((hread s (by decide)).trans (hread _ (by decide))).trans (hread _ (by decide))).completes (exec_sync s) rfl
      (hquiet _ rfl) rfl
  | commit x pm => exact completes_commit s x pm
  | commit24 x => exact completes_commit24 s x
  | rdTime =>
    exact (busOnly_afterRead s (a := 0x00) (n := 8) (by decide) (by decide) (by decide)).completes (exec_rdTime s)
      (fillDraws_length _ _) (hquiet _ rfl) rfl
  | rdReg a =>
    have ha : (a.setWidth 8 : Byte).toNat + 1 ≤ 64 := by rw [chipAddr_toByte_toNat]; exact a.isLt
    exact (busOnly_afterRead s (by decide) (by decide) ha).completes (exec_rdReg s a) rfl (hquiet _ rfl) rfl
  | mrd1 o => exact completes_mrd1 s o
  | mrdb o n => exact completes_mrdb s o n
  | mwr1 o d => exact completes_mwr1 s o d
  | mwrb o data => exact completes_mwrb s o data
  | d2b v =>
    exact (BusOnly.refl s).completes (payload := fillDraws [toBcd v] s.draws) rfl (fillDraws_length _ _)
      (hquiet _ rfl) rfl
  | b2d b =>
    exact (BusOnly.refl s).completes (payload := fillDraws [ofBcd b] s.draws) rfl (fillDraws_length _ _)
      (hquiet _ rfl) rfl

theorem exec_effect {i : Instr} {s t : State} (h : exec i s = .next t) :
    ∃ xs payload, CommandEffect i s t xs payload := by
  obtain ⟨u, xs, payload, hu, heffect⟩ := completes i s
  obtain rfl := eq_of_exec h hu
  exact ⟨xs, payload, heffect⟩

section
variable {i : Instr} {s t : State} {xs : List Transaction} {payload : List Byte}

/-! ### What the effect says of each part of the state -/

theorem CommandEffect.input (h : CommandEffect i s t xs payload) : t.input = s.input := by rw [h.frame]

theorem CommandEffect.params (h : CommandEffect i s t xs payload) : t.params = s.params := by rw [h.frame]

theorem CommandEffect.illegals (h : CommandEffect i s t xs payload) : t.illegals = s.illegals := by rw [h.frame]

theorem CommandEffect.trace (h : CommandEffect i s t xs payload) :
    t.trace = s.trace ++ xs.flatMap Transaction.events := by rw [h.frame]

theorem CommandEffect.responses (h : CommandEffect i s t xs payload) :
    t.responses = s.responses ++ 0x00 :: payload := by rw [h.frame]

theorem CommandEffect.pcb (h : CommandEffect i s t xs payload) (hrow : Field.pcb ∉ mayWrite i) : t.pcb = s.pcb := by
  rw [h.frame]
  exact written_of_notMem hrow _ _

theorem CommandEffect.acb (h : CommandEffect i s t xs payload) (hrow : Field.acb ∉ mayWrite i) : t.acb = s.acb := by
  rw [h.frame]
  exact written_of_notMem hrow _ _

theorem CommandEffect.halted (h : CommandEffect i s t xs payload) (hrow : Field.halted ∉ mayWrite i) :
    t.halted = s.halted := by
  rw [h.frame]
  exact written_of_notMem hrow _ _

theorem CommandEffect.use24 (h : CommandEffect i s t xs payload) (hrow : Field.use24 ∉ mayWrite i) :
    t.use24 = s.use24 := by
  rw [h.frame]
  exact written_of_notMem hrow _ _

end

theorem StoredOnly.wf {i : Instr} {s t : State} (h : StoredOnly i s t) (hwf : Mem.wf s.mem = true) :
    Mem.wf t.mem = true := by
  obtain ⟨a, bs, hspace, -, hmem⟩ := h
  rw [hmem]
  exact Mem.wf_writeList hwf a bs hspace

theorem StoredOnly.read_eq {i : Instr} {s t : State} (h : StoredOnly i s t) (hwf : Mem.wf s.mem = true) {x : Nat}
    (hx : storesTo x i = false) : Mem.read t.mem x = Mem.read s.mem x := by
  obtain ⟨a, bs, hspace, hin, hmem⟩ := h
  rw [hmem, Mem.read_writeList hwf a bs hspace, if_neg fun hrun => ?_]
  rw [hin x hrun] at hx
  cases hx

/-! ### The invariant -/

/-- The events of a legal transaction are events the bus port may carry (00_scope.md R9). -/
theorem Transaction.events_legal {x : Transaction} (hx : x.legal = true) : ∀ e ∈ x.events, e.legal = true := by
  cases x with
  | read a bs =>
    have hbounds := of_decide_eq_true hx
    simp [Transaction.events, readEvents, ptrSetEvents, BusEvent.legal, hbounds.1, hbounds.2.1]
  | write a bs => simp [Transaction.events, writeEvents, or_imp, forall_and, BusEvent.legal]

/-- A command's effect keeps the invariant, from any state that meets it. -/
theorem CommandEffect.inv {i : Instr} {s t : State} {xs : List Transaction} {payload : List Byte}
    (h : CommandEffect i s t xs payload) (hs : s.Inv) : t.Inv where
  memCanonical := h.stored.wf hs.memCanonical
  busIdle := h.phase.elim (fun hkept => hkept.trans hs.busIdle) id
  freqInjective := h.params ▸ hs.freqInjective
  eventsLegal := by
    intro e he
    rw [h.trace, List.mem_append, List.mem_flatMap] at he
    obtain hold | ⟨x, hx, hnew⟩ := he
    · exact hs.eventsLegal e hold
    · exact Transaction.events_legal (h.legal x hx) e hnew

/-- The invariant does not speak of the command port, the responses or the count of IllegalCommands. -/
theorem State.Inv.withPorts {s : State} (hs : s.Inv) (input responses : List Byte) (illegals : Nat) :
    State.Inv { s with input := input, responses := responses, illegals := illegals } :=
  ⟨hs.memCanonical, hs.busIdle, hs.freqInjective, hs.eventsLegal⟩

/-- Settles O12: a step is a command, whose effect keeps the invariant, or an IllegalCommand, which writes nothing the
invariant speaks of. -/
theorem stepKeepsTheInvariant : Obligations.StepKeepsTheInvariant := by
  intro s t hs hstep
  cases hd : decode s.input with
  | command i rest =>
    rw [step_of_decode_command hd] at hstep
    obtain ⟨xs, payload, heffect⟩ := exec_effect hstep
    exact heffect.inv (hs.withPorts rest s.responses s.illegals)
  | illegal why rest =>
    rw [step_of_decode_illegal hd] at hstep
    cases hstep
    exact hs.withPorts rest _ _
  | incomplete | exhausted =>
    rw [step, hd] at hstep
    cases hstep

/-! ### The frame of the machine -/

/-- Settles O55: the run of bytes a command stores lies inside the addresses it stores to. -/
theorem chipBytesNotStoredToAreKept : Obligations.ChipBytesNotStoredToAreKept := by
  intro i s t a hwf hexec ha
  obtain ⟨xs, payload, heffect⟩ := exec_effect hexec
  exact heffect.stored.read_eq hwf ha

/-- Settles O56, from the effect of the command in the state with those answers. -/
theorem everyCommandCompletes : Obligations.EveryCommandCompletes := by
  intro i s answers
  obtain ⟨t, xs, payload, hexec, h⟩ := completes i { s with oracle := answers }
  exact ⟨t, hexec, h.input, h.params, h.illegals, ⟨_, h.trace.symm⟩, ⟨_, h.responses.symm⟩⟩

/-- Settles O57, from the effect of the command. -/
theorem oneResponsePerCommand : Obligations.OneResponsePerCommand := by
  intro i s t hexec
  obtain ⟨xs, payload, heffect⟩ := exec_effect hexec
  exact ⟨payload, heffect.responses, heffect.payload_length⟩

/-- Settles O58, from the effect of the command. -/
theorem busTraceIsLegalTransactions : Obligations.BusTraceIsLegalTransactions := by
  intro i s t hexec
  obtain ⟨xs, payload, heffect⟩ := exec_effect hexec
  exact ⟨xs, heffect.legal, heffect.trace⟩

/-! ### The write matrix -/

/-- BEGIN's fields by the bytes of its three reads. -/
theorem exec_sync_fields {s t : State} (h : exec .sync s = .next t) :
    t.pcb = s.answer 0x07 0 ∧ t.acb = s.answer 0x07 0 ∧
      t.halted = (s.oracle.getD 1 (Mem.read s.mem 0x00)).bit 7 ∧
      t.use24 = !(s.oracle.getD 2 (Mem.read s.mem 0x02)).bit 6 := by
  obtain rfl := eq_of_exec h (beginSynchronisesFromTheChip.1 s)
  exact ⟨rfl, rfl, rfl, rfl⟩

theorem exec_rdTime_acb {s t : State} (h : exec .rdTime s = .next t) : t.acb = s.answer 0x00 7 := by
  obtain rfl := eq_of_exec h (exec_rdTime s)
  rfl

/-- Settles O54: the empty cells by the effect of the command, each written cell by what its command does. -/
theorem writeMatrixHolds : Obligations.WriteMatrixHolds := by
  intro i s t hexec
  obtain ⟨xs, payload, heffect⟩ := exec_effect hexec
  refine ⟨heffect.pcb, heffect.acb, heffect.halted, heffect.use24, ?setHalt, ?set24h, ?sqwEn, ?sqwFreq, ?sqwPol,
    ?sync, ?commit, ?commit24, ?rdTime⟩
  case setHalt => rintro b rfl; obtain rfl := eq_of_exec hexec (exec_setHalt b s); rfl
  case set24h => rintro b rfl; obtain rfl := eq_of_exec hexec (exec_set24h b s); rfl
  case sqwEn =>
    rintro b rfl
    obtain ⟨p, hp, hwritten, hkept⟩ := sqwEnWritesBitFourOnly.1 s b
    obtain rfl := eq_of_exec hexec hp
    exact ⟨hwritten, hkept⟩
  case sqwFreq =>
    rintro f rfl
    obtain rfl := eq_of_exec hexec (exec_sqwFreq f s)
    exact ⟨withSqwFreq_setWidth _ _, fun k hk => (withSqwFreq_bit _ _ k).trans (if_neg (Nat.not_lt_of_le hk))⟩
  case sqwPol =>
    rintro p rfl
    obtain ⟨c, hc, hwritten, hkept⟩ := sqwPolWritesInvertedBitSeven.1 s p
    obtain rfl := eq_of_exec hexec hc
    exact ⟨hwritten, hkept⟩
  case sync => rintro rfl; exact exec_sync_fields hexec
  case commit => rintro x pm rfl; obtain rfl := eq_of_exec hexec (exec_commit s x pm); rfl
  case commit24 =>
    rintro x rfl
    obtain rfl := eq_of_exec hexec ((exec_commit24 s x).trans (exec_commit _ x false))
    exact ⟨rfl, rfl⟩
  case rdTime => rintro rfl; exact exec_rdTime_acb hexec

end Sys2Proof.Machine
end

section
/-! PROOFS. Two setters in a row (spec 40_config_setters.md R106): each bit of the codec's fields is written by at most one
setter command, so of two writes to a bit the last one stays, and setters of different commands write different bits. -/

namespace Sys2Proof.Machine

/-! ### The bits setters write -/

/-- A bit of the codec's fields that a setter could write. -/
inductive Slot where
  | pcbBit (k : Nat)
  | halted
  | use24

def State.slot (s : State) : Slot → Bool
  | .pcbBit k => s.pcb.bit k
  | .halted => s.halted
  | .use24 => s.use24

/-- The setter command that writes a bit, if any (40_config_setters.md R100 to R104). -/
def Slot.setter : Slot → Option Opcode
  | .pcbBit k => if k < 2 then some .sqwFreq else if k = 4 then some .sqwEn else if k = 7 then some .sqwPol else none
  | .halted => some .setHalt
  | .use24 => some .set24h

theorem Slot.setter_pcbBit_eq_some {k : Nat} {op : Opcode} : (Slot.pcbBit k).setter = some op ↔
    (k < 2 ∧ op = .sqwFreq) ∨ (k = 4 ∧ op = .sqwEn) ∨ (k = 7 ∧ op = .sqwPol) := by
  rw [Slot.setter]
  split_ifs with hfreq hen hpol
  · simp [hfreq, eq_comm, show k ≠ 4 by omega, show k ≠ 7 by omega]
  · simp [hen, eq_comm]
  · simp [hpol, eq_comm]
  · simp [hfreq, hen, hpol]

/-- What a setter writes into a bit of its own. -/
def setterValue (m : FreqCode) : Instr → Slot → Bool
  | .sqwFreq f, .pcbBit k => (freqPattern m f).getLsbD k
  | .sqwPol p, _ => !p
  | .setHalt b, _ => b
  | .set24h b, _ => b
  | .sqwEn b, _ => b
  | _, _ => false

/-- A setter writes its own bits and keeps every other. -/
theorem exec_setter_slot {i : Instr} {s t : State} (hi : IsSetter i) (h : exec i s = .next t) (x : Slot) :
    t.slot x = if x.setter = some i.opcode then setterValue s.params.freqCode i x else s.slot x := by
  cases i with
  | setHalt b =>
    obtain rfl := eq_of_exec h (exec_setHalt b s)
    cases x with
    | pcbBit k => simp [State.slot, Slot.setter_pcbBit_eq_some, Instr.opcode]
    | halted | use24 => rfl
  | set24h b =>
    obtain rfl := eq_of_exec h (exec_set24h b s)
    cases x with
    | pcbBit k => simp [State.slot, Slot.setter_pcbBit_eq_some, Instr.opcode]
    | halted | use24 => rfl
  | sqwEn b =>
    obtain rfl := eq_of_exec h (exec_sqwEn b s)
    cases x with
    | pcbBit k =>
      have hown : (Slot.pcbBit k).setter = some .sqwEn ↔ k = 4 := by simp [Slot.setter_pcbBit_eq_some]
      simp only [State.slot, withSqwEnable_eq_writeBit, writeBit_bit (show 4 < 8 by decide), Instr.opcode, hown,
        setterValue]
    | halted | use24 => rfl
  | sqwFreq f =>
    obtain rfl := eq_of_exec h (exec_sqwFreq f s)
    cases x with
    | pcbBit k =>
      have hown : (Slot.pcbBit k).setter = some .sqwFreq ↔ k < 2 := by simp [Slot.setter_pcbBit_eq_some]
      simp only [State.slot, withSqwFreq_bit, Instr.opcode, hown, setterValue]
    | halted | use24 => rfl
  | sqwPol p =>
    obtain rfl := eq_of_exec h (exec_sqwPol p s)
    cases x with
    | pcbBit k =>
      have hown : (Slot.pcbBit k).setter = some .sqwPol ↔ k = 7 := by simp [Slot.setter_pcbBit_eq_some]
      simp only [State.slot, withSqwPolarity_eq_writeBit, writeBit_bit (show 7 < 8 by decide), Instr.opcode, hown,
        setterValue]
    | halted | use24 => rfl
  | _ => exact hi.elim

/-! ### The rest of the state -/

/-- From `s` to `t` at most the fields setters write have changed, and the responses are `responses`. -/
def SameButSlots (s t : State) (responses : List Byte) : Prop :=
  t = { s with pcb := t.pcb, halted := t.halted, use24 := t.use24, responses := responses }

theorem exec_setter_next {i : Instr} {s t : State} (hi : IsSetter i) (h : exec i s = .next t) :
    SameButSlots s t (s.responses ++ [0x00]) := by
  obtain ⟨u, hu, hframe⟩ := settersAreDeferred i s hi
  obtain rfl := eq_of_exec h hu
  exact hframe

theorem SameButSlots.trans {s t u : State} {ts us : List Byte} (h : SameButSlots s t ts) (h' : SameButSlots t u us) :
    SameButSlots s u us :=
  Eq.trans h' (by rw [h])

theorem SameButSlots.params {s t : State} {ts : List Byte} (h : SameButSlots s t ts) : t.params = s.params := by rw [h]

theorem SameButSlots.responses {s t : State} {ts : List Byte} (h : SameButSlots s t ts) : t.responses = ts := by rw [h]

/-- Two such states are one when they agree on every bit setters write. -/
theorem SameButSlots.unique {s t u : State} {ts : List Byte} (ht : SameButSlots s t ts) (hu : SameButSlots s u ts)
    (h : ∀ x, t.slot x = u.slot x) : t = u := by
  have hpcb : t.pcb = u.pcb := BitVec.eq_of_getLsbD_eq fun k _ => h (.pcbBit k)
  have hhalted : t.halted = u.halted := h .halted
  have huse24 : t.use24 = u.use24 := h .use24
  exact Eq.trans ht (by rw [hpcb, hhalted, huse24]; exact Eq.symm hu)

/-! ### Two setters in a row -/

/-- The bits after two setters: the second one's, then the first one's, then those of before. -/
theorem exec_two_setters_slot {i j : Instr} {s t u : State} (hi : IsSetter i) (hj : IsSetter j)
    (ht : exec i s = .next t) (hu : exec j t = .next u) (x : Slot) :
    u.slot x = if x.setter = some j.opcode then setterValue s.params.freqCode j x
      else if x.setter = some i.opcode then setterValue s.params.freqCode i x else s.slot x := by
  rw [exec_setter_slot hj hu, exec_setter_slot hi ht, (exec_setter_next hi ht).params]

theorem exec_two_setters_next {i j : Instr} {s t u : State} (hi : IsSetter i) (hj : IsSetter j)
    (ht : exec i s = .next t) (hu : exec j t = .next u) : SameButSlots s u (s.responses ++ [0x00] ++ [0x00]) := by
  have hfirst := exec_setter_next hi ht
  have hsecond := exec_setter_next hj hu
  rw [hfirst.responses] at hsecond
  exact hfirst.trans hsecond

/-- A bit of no setter is kept by two of them. -/
theorem exec_two_setters_keep {i j : Instr} {s t u : State} (hi : IsSetter i) (hj : IsSetter j)
    (ht : exec i s = .next t) (hu : exec j t = .next u) {x : Slot} (hx : x.setter = none) : u.slot x = s.slot x := by
  rw [exec_two_setters_slot hi hj ht hu, hx, if_neg nofun, if_neg nofun]

/-- Settles O19: bit by bit, by the setter that writes the bit; two commands of one opcode write the same bits, two of
different opcodes no bit in common. -/
theorem settersLastWriteWins : Obligations.SettersLastWriteWins := by
  intro i j s t u hi hj ht hu
  have hnext := exec_two_setters_next hi hj ht hu
  have hslot := exec_two_setters_slot hi hj ht hu
  have hkeep {k : Nat} (hk : (Slot.pcbBit k).setter = none) := exec_two_setters_keep hi hj ht hu hk
  refine ⟨⟨hkeep (k := 6) rfl, hkeep (k := 5) rfl, hkeep (k := 3) rfl, hkeep (k := 2) rfl⟩, fun hsame => ?same,
    fun hdifferent => ?different⟩
  case same =>
    obtain ⟨v, hv, hframe⟩ := settersAreDeferred j { s with responses := s.responses ++ [0x00] } hj
    have hvslot := exec_setter_slot hj hv
    have hvnext : SameButSlots s v (s.responses ++ [0x00] ++ [0x00]) := hframe
    have huv : u = v := hnext.unique hvnext fun x => by
      rw [hslot, hvslot, hsame]
      split <;> rfl
    rw [hv, huv]
  case different =>
    obtain ⟨v, hv, -⟩ := settersAreDeferred j s hj
    obtain ⟨w, hw, -⟩ := settersAreDeferred i v hi
    have huw : u = w := hnext.unique (exec_two_setters_next hj hi hv hw) fun x => by
      rw [hslot, exec_two_setters_slot hj hi hv hw]
      by_cases hxi : x.setter = some i.opcode
      · have hxj : x.setter ≠ some j.opcode := fun hxj => hdifferent (Option.some.inj (hxi.symm.trans hxj))
        rw [if_neg hxj, if_neg hxj]
      · rw [if_neg hxi, if_neg hxi]
    exact ⟨v, hv, by rw [hw, huw]⟩

end Sys2Proof.Machine
end

section
/-! PROOFS. What a command does not depend on: BEGIN on no field of the codec, the cached queries on `ACB` alone, the
commands of 70_reset_and_hazards.md R241 on no field, no command on the register pointer or the bus phase left before
it (10_state.md R34). -/

namespace Sys2Proof.Machine

/-! ### BEGIN -/

/-- Settles O27: BEGIN overwrites all four fields and reads none. -/
theorem beginRemovesResetDependence : Obligations.BeginRemovesResetDependence :=
  fun s _ _ _ _ => ⟨_, exec_sync s, exec_sync _⟩

/-- Settles O26: a setter changes fields BEGIN overwrites, and adds one response. -/
theorem beginDiscardsPendingIntent : Obligations.BeginDiscardsPendingIntent := by
  intro i s t u hi ht hu
  have hsetter := exec_setter_next hi ht
  rw [hsetter] at hu
  obtain rfl := eq_of_exec hu (exec_sync _)
  refine ⟨_, exec_sync s, ?_⟩
  rw [List.append_assoc]
  rfl

/-! ### The cached queries -/

/-- Settles O28, query by query: the answer is computed from `ACB` and the parameters. -/
theorem cachedQueriesSeeOnlyAcb : Obligations.CachedQueriesSeeOnlyAcb := by
  rintro i s t pcb halted use24 chip (rfl | rfl | rfl) h
  · obtain rfl := eq_of_exec h (exec_qSqwEn s)
    exact ⟨_, exec_qSqwEn _, rfl, rfl⟩
  · obtain rfl := eq_of_exec h (exec_qSqwFreq s)
    exact ⟨_, exec_qSqwFreq _, rfl, rfl⟩
  · obtain rfl := eq_of_exec h (exec_qSqwPol s)
    exact ⟨_, exec_qSqwPol _, rfl, rfl⟩

/-! ### The commands that need no field -/

/-- The command completes from both states, with the same responses, bus trace and chip bytes. -/
def AnswersAlike (i : Instr) (s s' : State) : Prop :=
  ∃ t t', exec i s = .next t ∧ exec i s' = .next t' ∧
    t'.responses = t.responses ∧ t'.trace = t.trace ∧ t'.mem = t.mem

theorem answersAlike_of_needsNoField {i : Instr} (hi : NeedsNoField i) (s : State) (pcb acb : Byte)
    (halted use24 : Bool) :
    AnswersAlike i s { s with pcb := pcb, acb := acb, halted := halted, use24 := use24 } := by
  cases i with
  | setHalt b => exact ⟨_, _, exec_setHalt b s, exec_setHalt b _, rfl, rfl, rfl⟩
  | set24h b => exact ⟨_, _, exec_set24h b s, exec_set24h b _, rfl, rfl, rfl⟩
  | qHalt => exact ⟨_, _, exec_qHalt s, exec_qHalt _, rfl, rfl, rfl⟩
  | q24h => exact ⟨_, _, exec_q24h s, exec_q24h _, rfl, rfl, rfl⟩
  | sync => exact ⟨_, _, exec_sync s, exec_sync _, rfl, rfl, rfl⟩
  | rdTime => exact ⟨_, _, exec_rdTime s, exec_rdTime _, rfl, rfl, rfl⟩
  | rdReg a => exact ⟨_, _, exec_rdReg s a, exec_rdReg _ a, rfl, rfl, rfl⟩
  | mrd1 o =>
    rcases Nat.lt_or_ge 56 (o.toNat + 1) with hout | hin
    · exact ⟨_, _, exec_mrd1_of_outOfRange hout s, exec_mrd1_of_outOfRange hout _, rfl, rfl, rfl⟩
    · exact ⟨_, _, exec_mrd1_of_inRange hin s, exec_mrd1_of_inRange hin _, rfl, rfl, rfl⟩
  | mrdb o n =>
    refine ⟨_, _, mrdbReadsInSegments.1 s o n, mrdbReadsInSegments.1 _ o n, ?_⟩
    split_ifs <;> exact ⟨rfl, rfl, rfl⟩
  | mwr1 o d =>
    rcases Nat.lt_or_ge 56 (o.toNat + 1) with hout | hin
    · exact ⟨_, _, exec_mwr1_of_outOfRange hout d s, exec_mwr1_of_outOfRange hout d _, rfl, rfl, rfl⟩
    · exact ⟨_, _, exec_mwr1_of_inRange hin d s, exec_mwr1_of_inRange hin d _, rfl, rfl, rfl⟩
  | mwrb o data =>
    refine ⟨_, _, mwrbWritesInSegments.1 s o data, mwrbWritesInSegments.1 _ o data, ?_⟩
    split_ifs <;> exact ⟨rfl, rfl, rfl⟩
  | d2b v => exact ⟨_, _, rfl, rfl, rfl, rfl, rfl⟩
  | b2d b => exact ⟨_, _, rfl, rfl, rfl, rfl, rfl⟩
  | _ => exact hi.elim

/-- Settles O29, by `answersAlike_of_needsNoField`. -/
theorem readThroughIgnoresCodecFields : Obligations.ReadThroughIgnoresCodecFields := by
  intro i s t pcb acb halted use24 hi h
  obtain ⟨u, t', hu, ht', hsame⟩ := answersAlike_of_needsNoField hi s pcb acb halted use24
  obtain rfl := eq_of_exec h hu
  exact ⟨t', ht', hsame⟩

/-! ### The pointer and the phase of the bus -/

/-- The command completes from both states, in states that differ at most in the register pointer and the bus phase. -/
def LeavesAlike (i : Instr) (s s' : State) : Prop :=
  ∃ t t', exec i s = .next t ∧ exec i s' = .next t' ∧ t' = { t with ptr := t'.ptr, phase := t'.phase }

/-- Every transaction starts by setting the pointer, so none uses the one it finds (20_memory.md R44 to R46). -/
theorem leavesAlike_of_busMoved (i : Instr) (s : State) (ptr : ChipAddr) (phase : BusPhase) :
    LeavesAlike i s { s with ptr := ptr, phase := phase } := by
  cases i with
  | setHalt b => exact ⟨_, _, exec_setHalt b s, exec_setHalt b _, rfl⟩
  | set24h b => exact ⟨_, _, exec_set24h b s, exec_set24h b _, rfl⟩
  | sqwEn b => exact ⟨_, _, exec_sqwEn b s, exec_sqwEn b _, rfl⟩
  | sqwFreq f => exact ⟨_, _, exec_sqwFreq f s, exec_sqwFreq f _, rfl⟩
  | sqwPol p => exact ⟨_, _, exec_sqwPol p s, exec_sqwPol p _, rfl⟩
  | qHalt => exact ⟨_, _, exec_qHalt s, exec_qHalt _, rfl⟩
  | q24h => exact ⟨_, _, exec_q24h s, exec_q24h _, rfl⟩
  | qSqwEn => exact ⟨_, _, exec_qSqwEn s, exec_qSqwEn _, rfl⟩
  | qSqwFreq => exact ⟨_, _, exec_qSqwFreq s, exec_qSqwFreq _, rfl⟩
  | qSqwPol => exact ⟨_, _, exec_qSqwPol s, exec_qSqwPol _, rfl⟩
  | sync => exact ⟨_, _, exec_sync s, exec_sync _, rfl⟩
  | commit t pm => exact ⟨_, _, exec_commit s t pm, exec_commit _ t pm, rfl⟩
  | commit24 t =>
    exact ⟨_, _, (exec_commit24 s t).trans (exec_commit _ t false), (exec_commit24 _ t).trans (exec_commit _ t false),
      rfl⟩
  | rdTime => exact ⟨_, _, exec_rdTime s, exec_rdTime _, rfl⟩
  | rdReg a => exact ⟨_, _, exec_rdReg s a, exec_rdReg _ a, rfl⟩
  | mrd1 o =>
    rcases Nat.lt_or_ge 56 (o.toNat + 1) with hout | hin
    · exact ⟨_, _, exec_mrd1_of_outOfRange hout s, exec_mrd1_of_outOfRange hout _, rfl⟩
    · exact ⟨_, _, exec_mrd1_of_inRange hin s, exec_mrd1_of_inRange hin _, rfl⟩
  | mrdb o n =>
    refine ⟨_, _, mrdbReadsInSegments.1 s o n, mrdbReadsInSegments.1 _ o n, ?_⟩
    split_ifs <;> rfl
  | mwr1 o d =>
    rcases Nat.lt_or_ge 56 (o.toNat + 1) with hout | hin
    · exact ⟨_, _, exec_mwr1_of_outOfRange hout d s, exec_mwr1_of_outOfRange hout d _, rfl⟩
    · exact ⟨_, _, exec_mwr1_of_inRange hin d s, exec_mwr1_of_inRange hin d _, rfl⟩
  | mwrb o data =>
    refine ⟨_, _, mwrbWritesInSegments.1 s o data, mwrbWritesInSegments.1 _ o data, ?_⟩
    split_ifs <;> rfl
  | d2b v => exact ⟨_, _, rfl, rfl, rfl⟩
  | b2d b => exact ⟨_, _, rfl, rfl, rfl⟩

/-- Settles O59, by `leavesAlike_of_busMoved`. -/
theorem earlierPointerDoesNotMatter : Obligations.EarlierPointerDoesNotMatter := by
  intro i s t ptr phase h
  obtain ⟨u, t', hu, ht', hsame⟩ := leavesAlike_of_busMoved i s ptr phase
  obtain rfl := eq_of_exec h hu
  exact ⟨t', ht', hsame⟩

/-! ### COMMIT24 and the control bytes -/

/-- Settles O33: both ways the same COMMIT runs with `F24` set; only SET24H's response comes before it. -/
theorem commit24IsSet24hThenCommit : Obligations.Commit24IsSet24hThenCommit := by
  intro s u v t hu hv
  obtain rfl := eq_of_exec hu (exec_set24h true s)
  obtain rfl := eq_of_exec hv (exec_commit _ t false)
  refine ⟨_, (exec_commit24 s t).trans (exec_commit _ t false), rfl, ?_⟩
  have hresponses : s.responses ++ [0x00, 0x00] = s.responses ++ [0x00] ++ [0x00] :=
    (List.append_assoc s.responses [0x00] [0x00]).symm
  rw [hresponses]
  rfl

/-- Settles O34, command by command, from the control bytes each leaves. -/
theorem confirmedControlEqualsPending : Obligations.ConfirmedControlEqualsPending := by
  rintro i s t (⟨a, pm, rfl⟩ | ⟨a, rfl⟩ | rfl) h
  · obtain rfl := eq_of_exec h (exec_commit s a pm)
    rfl
  · obtain rfl := eq_of_exec h ((exec_commit24 s a).trans (exec_commit _ a false))
    rfl
  · obtain rfl := eq_of_exec h (exec_sync s)
    rfl

/-! ### The configuration read back -/

theorem freqOfPattern_freqPattern {m : FreqCode} (hm : m.Injective) (f : Freq) :
    freqOfPattern m (freqPattern m f) = f := by
  simp only [FreqCode.Injective, List.nodup_cons, List.mem_cons, List.not_mem_nil, or_false, not_or] at hm
  obtain ⟨⟨h14, h18, h132⟩, ⟨h48, h432⟩, h832, -⟩ := hm
  cases f with
  | f1hz => simp [freqOfPattern, freqPattern]
  | f4khz => simp [freqOfPattern, freqPattern, Ne.symm h14]
  | f8khz => simp [freqOfPattern, freqPattern, Ne.symm h18, Ne.symm h48]
  | f32khz => simp [freqOfPattern, freqPattern, Ne.symm h132, Ne.symm h432, Ne.symm h832]

/-- A bit written above them leaves the frequency bits. -/
theorem sqwFreqBits_writeBit {i : Nat} (hlow : 2 ≤ i) (hi : i < 8) (c : Byte) (v : Bool) :
    sqwFreqBits (writeBit c i v) = sqwFreqBits c := by
  refine BitVec.eq_of_getLsbD_eq fun k hk => ?_
  simp only [sqwFreqBits, BitVec.getLsbD_setWidth]
  exact congrArg (decide (k < 2) && ·) ((writeBit_bit hi c v k).trans (if_neg (by omega)))

/-- The control byte SQWFREQ, SQWEN and SQWPOL in a row leave. -/
def configuredByte (pcb : Byte) (c : BitVec 2) (en pol : Bool) : Byte :=
  withSqwPolarity (withSqwEnable (withSqwFreq pcb c) en) pol

theorem configuredByte_eq_writeBit (pcb : Byte) (c : BitVec 2) (en pol : Bool) :
    configuredByte pcb c en pol = writeBit (writeBit (withSqwFreq pcb c) 4 en) 7 !pol := by
  rw [configuredByte, withSqwPolarity_eq_writeBit, withSqwEnable_eq_writeBit]

theorem sqwFreqBits_configuredByte (pcb : Byte) (c : BitVec 2) (en pol : Bool) :
    sqwFreqBits (configuredByte pcb c en pol) = c := by
  rw [configuredByte_eq_writeBit, sqwFreqBits_writeBit (by decide) (by decide),
    sqwFreqBits_writeBit (by decide) (by decide)]
  exact withSqwFreq_setWidth pcb c

theorem sqwEnableBit_configuredByte (pcb : Byte) (c : BitVec 2) (en pol : Bool) :
    sqwEnableBit (configuredByte pcb c en pol) = en := by
  rw [configuredByte_eq_writeBit, sqwEnableBit, writeBit_bit (by decide), if_neg (by decide), writeBit_bit (by decide),
    if_pos rfl]

theorem sqwLevelHigh_configuredByte (pcb : Byte) (c : BitVec 2) (en pol : Bool) :
    sqwLevelHigh (configuredByte pcb c en pol) = pol := by
  rw [configuredByte_eq_writeBit, sqwLevelHigh, writeBit_bit (by decide), if_pos rfl, Bool.not_not]

/-- The three cached queries in a row answer from one `ACB`. -/
theorem exec_cachedQueries_responses {s t u v : State} (ht : exec .qSqwFreq s = .next t) (hu : exec .qSqwEn t = .next u)
    (hv : exec .qSqwPol u = .next v) :
    v.responses = s.responses ++ [0x00, freqByte (freqOfPattern s.params.freqCode (sqwFreqBits s.acb)),
      0x00, Byte.ofBool (sqwEnableBit s.acb), 0x00, Byte.ofBool (sqwLevelHigh s.acb)] := by
  obtain rfl := eq_of_exec ht (exec_qSqwFreq s)
  obtain rfl := eq_of_exec hu (exec_qSqwEn _)
  obtain rfl := eq_of_exec hv (exec_qSqwPol _)
  simp

/-- Settles O35: the commit makes the configured byte `ACB`, and the queries answer from its parts. -/
theorem configurationReadsBackAfterCommit : Obligations.ConfigurationReadsBackAfterCommit := by
  intro s s1 s2 s3 s4 s5 s6 s7 f en pol t hinjective h1 h2 h3 h4 h5 h6 h7
  obtain rfl := eq_of_exec h1 (exec_sqwFreq f s)
  obtain rfl := eq_of_exec h2 (exec_sqwEn en _)
  obtain rfl := eq_of_exec h3 (exec_sqwPol pol _)
  have hcommit := eq_of_exec h4 ((exec_commit24 _ t).trans (exec_commit _ t false))
  have hacb : s4.acb = configuredByte s.pcb (freqPattern s.params.freqCode f) en pol := by
    rw [hcommit]
    rfl
  have hparams : s4.params = s.params := by rw [hcommit]
  rw [exec_cachedQueries_responses h5 h6 h7, hacb, hparams, sqwFreqBits_configuredByte, sqwEnableBit_configuredByte,
    sqwLevelHigh_configuredByte, freqOfPattern_freqPattern hinjective]

end Sys2Proof.Machine
end

section
/-! PROOFS. The time read (spec 43_time_read.md R160 to R168): the read frame byte by byte against the spec's masks and the
decoder's formula, what RDTIME does, and that a committed time reads back. -/

namespace Sys2Proof.Machine

/-! ### Bytes given and bytes drawn -/

theorem zipWith_givenByte_getElem? {gs : List Bool} {bs : List Byte} (hlen : gs.length ≤ bs.length) {k : Nat}
    {given : Bool} (h : gs[k]? = some given) :
    ∃ b, bs[k]? = some b ∧ (List.zipWith givenByte gs bs)[k]? = some (givenByte given b) := by
  have hk : k < bs.length := Nat.lt_of_lt_of_le (List.getElem?_eq_some_iff.mp h).1 hlen
  refine ⟨_, List.getElem?_eq_getElem hk, ?_⟩
  rw [List.getElem?_zipWith, h, List.getElem?_eq_getElem hk]

theorem fillDraws_concat_some (bs : List (Option Byte)) (b : Byte) (n : Nat) :
    fillDraws (bs ++ [some b]) n = fillDraws bs n ++ [b] := by
  induction bs generalizing n with
  | nil => rfl
  | cons c bs ih => cases c <;> simp [fillDraws, ih]

theorem unspecifiedCount_concat_some (bs : List (Option Byte)) (b : Byte) :
    unspecifiedCount (bs ++ [some b]) = unspecifiedCount bs := by
  simp [unspecifiedCount]

/-! ### The bytes of the read frame -/

theorem ofBcd_eq (b : Byte) : ofBcd b = givenByte (decide (IsBcd b)) (bcdValue b) := by
  by_cases hb : IsBcd b
  · rw [ofBcd_of_isBcd hb, decide_eq_true hb, givenByte_true]
  · rw [ofBcd_of_not_isBcd hb, decide_eq_false hb, givenByte_false]

theorem hour12Of_eq (r : Byte) :
    hour12Of r = givenByte (decide (IsBcd (r &&& 0x1F) ∧ 1 ≤ (bcdValue (r &&& 0x1F)).toNat ∧
      (bcdValue (r &&& 0x1F)).toNat ≤ 12)) (bcdValue (r &&& 0x1F)) := by
  rw [hour12Of, ofBcd_eq]
  by_cases hb : IsBcd (r &&& 0x1F)
  · by_cases hrange : 1 ≤ (bcdValue (r &&& 0x1F)).toNat ∧ (bcdValue (r &&& 0x1F)).toNat ≤ 12
    · rw [decide_eq_true hb, decide_eq_true ⟨hb, hrange⟩, givenByte_true]
      exact Option.filter_some_pos (decide_eq_true hrange)
    · rw [decide_eq_true hb, decide_eq_false fun h => hrange h.2, givenByte_true, givenByte_false]
      exact Option.filter_some_neg (by simpa using hrange)
  · rw [decide_eq_false hb, decide_eq_false fun h => hb h.1]
    rfl

/-- The seven fields of a read frame: each the value of its masked byte where the spec gives it (43_time_read.md R161 to
R165; log 20). -/
def readFields (r : Nat → Byte) : List (Option Byte) :=
  List.zipWith givenByte (readGiven r) ((maskedFrame r).map bcdValue)

theorem readFields_getElem? {r : Nat → Byte} {k : Nat} {given : Bool} (h : (readGiven r)[k]? = some given) :
    ∃ b, ((maskedFrame r).map bcdValue)[k]? = some b ∧ (readFields r)[k]? = some (givenByte given b) :=
  zipWith_givenByte_getElem? (bs := (maskedFrame r).map bcdValue) (show (readGiven r).length ≤ 7 from Nat.le_refl 7) h

/-- The model's payload is the spec's formulas where the spec gives the byte, and the flags byte. -/
theorem readPayload_eq (r : Nat → Byte) :
    readPayload ((List.range 8).map r) = readFields r ++ [some (flagsOf (r 2))] := by
  have hhour : hourOf (r 2) = givenByte
      (if (r 2).bit 6 then
        decide (IsBcd (r 2 &&& 0x1F) ∧ 1 ≤ (bcdValue (r 2 &&& 0x1F)).toNat ∧ (bcdValue (r 2 &&& 0x1F)).toNat ≤ 12)
      else decide (IsBcd (r 2 &&& 0x3F)))
      (bcdValue (if (r 2).bit 6 then r 2 &&& 0x1F else r 2 &&& 0x3F)) := by
    rw [hourOf, mode12Bit]
    split
    · exact hour12Of_eq (r 2)
    · exact ofBcd_eq (r 2 &&& 0x3F)
  show [secondOf (r 0), ofBcd (r 1), hourOf (r 2), ofBcd (r 3), ofBcd (r 4), ofBcd (r 5), ofBcd (r 6),
    some (flagsOf (r 2))] = _
  rw [secondOf, hhour]
  simp only [ofBcd_eq]
  rfl

/-! ### The flags byte -/

theorem timeFlags_bit (is24 pm : Bool) (k : Nat) :
    (timeFlags is24 pm).bit k = if k = 0 then is24 else if k = 1 then pm else false := by
  have hbits : timeFlags is24 pm = (BitVec.ofBool pm ++ BitVec.ofBool is24).setWidth 8 := by
    cases is24 <;> cases pm <;> rfl
  rw [hbits, Byte.bit, BitVec.getLsbD_setWidth, BitVec.getLsbD_append]
  match k with
  | 0 => simp
  | 1 => simp
  | k + 2 => simp

theorem flagsOf_bit (r : Byte) (k : Nat) :
    (flagsOf r).bit k = if k = 0 then !r.bit 6 else if k = 1 then r.bit 6 && r.bit 5 else false := by
  rw [flagsOf, mode12Bit]
  cases hmode : r.bit 6 <;> simp [timeFlags_bit, pmBit]

/-! ### What RDTIME does -/

/-- RDTIME reads the frame in one transaction, answers its fields and the flags, and makes the eighth byte `ACB`
(43_time_read.md R160, R166, R167). -/
theorem exec_rdTime_fields (s : State) :
    exec .rdTime s = .next { s with
      acb := s.answer 0x00 7
      ptr := 8
      phase := .idle
      oracle := s.oracle.drop 8
      trace := s.trace ++
        [.begin 0x68, .write 0x00, .stop, .request 0x68 8,
         .read (s.answer 0x00 0), .read (s.answer 0x00 1), .read (s.answer 0x00 2), .read (s.answer 0x00 3),
         .read (s.answer 0x00 4), .read (s.answer 0x00 5), .read (s.answer 0x00 6), .read (s.answer 0x00 7)]
      responses := s.responses ++
        0x00 :: (fillDraws (readFields (s.answer 0x00)) s.draws ++ [flagsOf (s.answer 0x00 2)])
      draws := s.draws + (readGiven (s.answer 0x00)).count false } := by
  have hpayload : readPayload (s.answers 0x00 8) = _ := readPayload_eq (s.answer 0x00)
  have hcount : unspecifiedCount (readFields (s.answer 0x00)) = (readGiven (s.answer 0x00)).count false :=
    unspecifiedCount_zipWith_givenByte (Nat.le_refl 7)
  rw [exec_rdTime, hpayload, State.draw, fillDraws_concat_some, unspecifiedCount_concat_some, hcount]
  rfl

/-- Settles O36: each field is given or drawn as `readFields` has it, and the flags by `flagsOf_bit`. -/
theorem rdTimeDecodesTheFrame : Obligations.RdTimeDecodesTheFrame := by
  refine ⟨fun s => ?next, fun _ _ hs => step_of_opcodeAlone .rdTime hs rfl⟩
  case next =>
    refine ⟨fillDraws (readFields (s.answer 0x00)) s.draws, flagsOf (s.answer 0x00 2), fillDraws_length _ _, ?given,
      ?drawn, ⟨flagsOf_bit _ 0, ?isPM, ?zeros⟩, exec_rdTime_fields s⟩
    case given =>
      intro k hk
      obtain ⟨b, hvalue, hfield⟩ := readFields_getElem? hk
      exact (fillDraws_some hfield s.draws).trans hvalue.symm
    case drawn =>
      intro k hk
      obtain ⟨b, -, hfield⟩ := readFields_getElem? hk
      obtain ⟨n, hn, -, hdrawn⟩ := fillDraws_none hfield s.draws
      exact ⟨n, hn, hdrawn⟩
    case isPM =>
      intro hmode
      rw [flagsOf_bit, if_neg (by decide), if_pos rfl, hmode, Bool.true_and]
    case zeros =>
      intro k hk
      rw [flagsOf_bit, if_neg (by omega), if_neg (by omega)]

/-- Settles O37: with bit 6 of the hours byte clear the flags are those of a 24-hour read (decision D14, log 10). -/
theorem rdTime24HourReadIsNotPm : Obligations.RdTime24HourReadIsNotPm := by
  intro s hmode
  have hflags : flagsOf (s.answer 0x00 2) = 0x01 := by
    rw [flagsOf, mode12Bit, hmode]
    rfl
  exact ⟨_, fillDraws (readFields (s.answer 0x00)) s.draws, exec_rdTime_fields s, fillDraws_length _ _,
    by rw [hflags]⟩

/-! ### The frame of a commit read back -/

theorem ofBcd_bcdByte {v : Byte} (h : v.toNat ≤ 99) : ofBcd (bcdByte v) = some v := by
  rw [ofBcd_of_isBcd (isBcd_bcdByte h), bcdValue_bcdByte h]

/-- Masking to the low `k` bits keeps a byte that has no others. -/
theorem and_lowMask_of_lt {b : Byte} {k : Nat} (hk : k ≤ 8) (h : b.toNat < 2 ^ k) :
    b &&& BitVec.ofNat 8 (2 ^ k - 1) = b := by
  have hpow : 2 ^ k ≤ 2 ^ 8 := Nat.pow_le_pow_right (by decide) hk
  apply BitVec.eq_of_toNat_eq
  rw [BitVec.toNat_and, BitVec.toNat_ofNat, Nat.mod_eq_of_lt (by omega), Nat.and_two_pow_sub_one_eq_mod,
    Nat.mod_eq_of_lt h]

/-- The halt bit is masked off (43_time_read.md R161). -/
theorem secondOf_secondsByte {v : Byte} (h : v.toNat ≤ 59) (halted : Bool) :
    secondOf (bcdByte v ||| (if halted then 0x80 else 0x00)) = some v := by
  have hlow : bcdByte v &&& 0x7F = bcdByte v :=
    and_lowMask_of_lt (k := 7) (by decide) (by rw [bcdByte_toNat (by omega)]; omega)
  have hmask : (if halted then (0x80 : Byte) else 0x00) &&& 0x7F = 0#8 := by cases halted <;> rfl
  rw [secondOf, BitVec.and_comm, BitVec.and_or_distrib_left, BitVec.and_comm, hlow, BitVec.and_comm, hmask,
    BitVec.or_zero, ofBcd_bcdByte (by omega)]

/-- The hours byte of 12-hour mode with these digits (42_time_commit.md R143). -/
def hours12 (pm : Bool) (digits : Byte) : Byte := 0x40 ||| (if pm then 0x20 else 0x00) ||| digits

theorem hours12_bit6 (pm : Bool) (digits : Byte) : (hours12 pm digits).bit 6 = true := by
  simp [hours12]

theorem hours12_bit5 {digits : Byte} (h : digits.toNat < 32) (pm : Bool) : (hours12 pm digits).bit 5 = pm := by
  have hhigh : digits.getLsbD 5 = false := Nat.testBit_lt_two_pow h
  simp only [hours12, Byte.bit, BitVec.getLsbD_or, hhigh, Bool.or_false]
  cases pm <;> rfl

theorem hours12_and_mask {digits : Byte} (h : digits.toNat < 32) (pm : Bool) : hours12 pm digits &&& 0x1F = digits := by
  have hlow : digits &&& 0x1F = digits := and_lowMask_of_lt (k := 5) (by decide) h
  have hmask : (0x1F : Byte) &&& (0x40 ||| (if pm then 0x20 else 0x00)) = 0#8 := by cases pm <;> rfl
  rw [hours12, BitVec.and_comm, BitVec.and_or_distrib_left, hmask, BitVec.and_comm, hlow, BitVec.zero_or]

/-- The hour and the PM flag a commit puts into a 12-hour frame: above 12 the clamp (42_time_commit.md R143). -/
theorem hoursFormula_false (hour : Byte) (pm : Bool) :
    hoursFormula false hour pm = hours12 (decide (12 < hour.toNat) || pm)
      (bcdByte (if 12 < hour.toNat then hour - 12 else hour)) := by
  by_cases hclamp : 12 < hour.toNat
  · simp [hoursFormula, hours12, hclamp]
  · simp [hoursFormula, hours12, hclamp]

/-- An hour of 1 to 12 and its PM flag are read back from a 12-hour frame (43_time_read.md R163). -/
theorem hourOf_hours12 {hour : Byte} (hlow : 1 ≤ hour.toNat) (hhigh : hour.toNat ≤ 12) (pm : Bool) :
    hourOf (hours12 pm (bcdByte hour)) = some hour := by
  have hdigits : (bcdByte hour).toNat < 32 := by rw [bcdByte_toNat (by omega)]; omega
  rw [hourOf, mode12Bit, hours12_bit6, if_pos rfl, hour12Of_eq_some, hours12_and_mask hdigits]
  exact ⟨ofBcd_bcdByte (by omega), hlow, hhigh⟩

theorem flagsOf_hours12 {digits : Byte} (h : digits.toNat < 32) (pm : Bool) :
    flagsOf (hours12 pm digits) = if pm then 0x02 else 0x00 := by
  rw [flagsOf, mode12Bit, hours12_bit6, if_pos rfl, pmBit, hours12_bit5 h]
  cases pm <;> rfl

/-- An hour of 0 to 23 is read back from a 24-hour frame (43_time_read.md R163). -/
theorem hourOf_bcdByte {hour : Byte} (h : hour.toNat ≤ 23) :
    hourOf (bcdByte hour) = some hour ∧ flagsOf (bcdByte hour) = 0x01 := by
  have hdigits : (bcdByte hour).toNat < 2 ^ 6 := by rw [bcdByte_toNat (by omega)]; omega
  have hmode : (bcdByte hour).bit 6 = false := Nat.testBit_lt_two_pow hdigits
  have hmask : bcdByte hour &&& 0x3F = bcdByte hour := and_lowMask_of_lt (k := 6) (by decide) hdigits
  rw [hourOf, flagsOf, mode12Bit, hmode, if_neg nofun, hmask]
  exact ⟨ofBcd_bcdByte (by omega), rfl⟩

/-- The hours byte of a commit in range read back: the hour, less 12 where the clamp took 12 off, and the flags
(43_time_read.md R168). -/
theorem hourOf_hoursFormula {use24 : Bool} {hour : Byte} (hlow : use24 = true ∨ 1 ≤ hour.toNat)
    (hhigh : hour.toNat ≤ 23) (pm : Bool) :
    hourOf (hoursFormula use24 hour pm) = some (if use24 = false ∧ 12 < hour.toNat then hour - 12 else hour) ∧
      flagsOf (hoursFormula use24 hour pm) =
        if use24 then 0x01 else if 12 < hour.toNat ∨ pm = true then 0x02 else 0x00 := by
  cases use24 with
  | true => simpa [hoursFormula] using hourOf_bcdByte hhigh
  | false =>
    have hlow : 1 ≤ hour.toNat := hlow.resolve_left nofun
    have hshown : 1 ≤ (if 12 < hour.toNat then hour - 12 else hour).toNat ∧
        (if 12 < hour.toNat then hour - 12 else hour).toNat ≤ 12 := by
      split <;> bv_omega
    have hdigits : (bcdByte (if 12 < hour.toNat then hour - 12 else hour)).toNat < 32 := by
      rw [bcdByte_toNat (by omega)]
      omega
    rw [hoursFormula_false, hourOf_hours12 hshown.1 hshown.2, flagsOf_hours12 hdigits]
    simp

/-- Every field of a committed frame in range is read back, so nothing is drawn (43_time_read.md R168). -/
theorem readPayload_frameFormula {t : TimeArgs} {use24 : Bool} (h : TimeInRange t use24) (pm halted : Bool)
    (pcb : Byte) :
    readPayload (frameFormula t pm halted use24 pcb) =
      [t.second, t.minute, (if use24 = false ∧ 12 < t.hour.toNat then t.hour - 12 else t.hour), t.dayOfWeek,
        t.dayOfMonth, t.month, t.year,
        (if use24 then 0x01 else if 12 < t.hour.toNat ∨ pm = true then 0x02 else 0x00)].map some := by
  simp only [TimeInRange, frameGiven, List.forall_mem_cons, decide_eq_true_eq] at h
  obtain ⟨hsecond, hminute, ⟨hlow, hhigh⟩, hdow, hdom, hmonth, hyear, -⟩ := h
  obtain ⟨hhour, hflags⟩ := hourOf_hoursFormula hlow hhigh pm
  show [secondOf (bcdByte t.second ||| (if halted then 0x80 else 0x00)), ofBcd (bcdByte t.minute),
    hourOf (hoursFormula use24 t.hour pm), ofBcd (bcdByte t.dayOfWeek), ofBcd (bcdByte t.dayOfMonth),
    ofBcd (bcdByte t.month), ofBcd (bcdByte t.year), some (flagsOf (hoursFormula use24 t.hour pm))] = _
  rw [secondOf_secondsByte hsecond, hhour, hflags, ofBcd_bcdByte (by omega), ofBcd_bcdByte (by omega),
    ofBcd_bcdByte (by omega), ofBcd_bcdByte (by omega), ofBcd_bcdByte hyear]
  rfl

/-- Settles O38: what RDTIME reads is the frame, whose fields `readPayload_frameFormula` decodes. -/
theorem commitThenReadTimeRoundTrip : Obligations.CommitThenReadTimeRoundTrip := by
  intro s u v t pm hrange hcommit hread hexec
  have hpcb : u.pcb = s.pcb := by rw [eq_of_exec hcommit (exec_commit s t pm)]
  have hacb : u.answer 0x00 7 = s.pcb := congrArg (List.getD · 7 0) hread
  have hv := eq_of_exec hexec (exec_rdTime u)
  rw [hread, readPayload_frameFormula hrange, State.draw_map_some] at hv
  refine ⟨?_, by rw [hv]; rfl⟩
  rw [exec_rdTime_acb hexec, hacb, hv]
  exact hpcb.symm

/-! ### The reference chip -/

/-- With no answer of the chip's own pending a read returns the bytes stored there (20_memory.md R54). -/
theorem State.answers_of_stored {s : State} {m : Mem} {a : Byte} {bs : List Byte} (horacle : s.oracle = [])
    (hmem : s.mem = Mem.writeList m a.toNat bs) (hwf : Mem.wf m = true) (hspace : a.toNat + bs.length ≤ 64) :
    s.answers a bs.length = bs := by
  refine List.ext_getElem (State.answers_length _ _ _) fun i hi hbs => ?_
  have hanswer : s.answer a i = bs.getD i 0 := by
    rw [State.answer, horacle, List.getD_nil, hmem, Mem.read_writeList hwf _ _ hspace, if_pos (by omega),
      Nat.add_sub_cancel_left]
  simp [State.answers, hanswer, hbs]

/-- Settles O39: the reference chip returns what the commit's one write stored. -/
theorem referenceChipReturnsTheFrame : Obligations.ReferenceChipReturnsTheFrame := by
  intro s u t pm hwf horacle hrange hcommit
  obtain rfl := eq_of_exec hcommit (exec_commit s t pm)
  rw [State.committedFrame_of_inRange hrange]
  exact State.answers_of_stored (a := 0x00) (bs := frameFormula t pm s.halted s.use24 s.pcb) horacle rfl hwf
    (show 0 + 8 ≤ 64 by decide)

end Sys2Proof.Machine
end

section
/-! PROOFS. Block requests over the segments (spec 44_scratch_memory.md R189 to R192): each segment's length, where the
data of a block write lands, and that a block written reads back. -/

namespace Sys2Proof.Machine

/-- Settles O48, by the two segments at most a request in range has: the first takes all that is left of it up to the
block limit, the second the rest. -/
theorem segmentShrinkNeverFires : Obligations.SegmentShrinkNeverFires := by
  intro o n hrange seg hseg
  rw [segments_eq hrange] at hseg
  split_ifs at hseg with hnone hone
  · cases hseg
  · obtain rfl := List.mem_singleton.mp hseg
    exact ⟨n, rfl, (Nat.min_eq_left hone).symm, by omega, by omega⟩
  · rw [List.mem_pair] at hseg
    obtain rfl | rfl := hseg
    · exact ⟨n, rfl, by omega, by omega, by omega⟩
    · exact ⟨n - 32, by omega, by omega, by omega, by omega⟩

/-- Settles O45: the segments store the data as one run of bytes from 0x08 + o on. -/
theorem mwrbDataLandsAtItsOffset : Obligations.MwrbDataLandsAtItsOffset := by
  intro s t o data a hwf hrange hexec
  obtain rfl := eq_of_exec hexec (exec_mwrb_of_inRange hrange s)
  have hspace : 8 + o.toNat + data.length ≤ Config.addrSpace := by simp only [Config.addrSpace]; omega
  show Mem.read (writeSegments (segments o.toNat data.length) data s).mem a = _
  rw [writeSegments_mem hrange, Mem.read_writeList hwf _ _ hspace]

/-- A block write in range uses up no answer of the chip, and its response is the status byte. -/
theorem exec_mwrb_ports {s t : State} {o : Byte} {data : List Byte} (hrange : o.toNat + data.length ≤ 56)
    (hexec : exec (.mwrb o data) s = .next t) : t.oracle = s.oracle ∧ t.responses = s.responses ++ [0x00] := by
  obtain rfl := eq_of_exec hexec (exec_mwrb_of_inRange hrange s)
  rw [writeSegments_eq hrange]
  split_ifs <;> exact ⟨rfl, rfl⟩

theorem exec_mrdb_responses {s t : State} {o n : Byte} (hrange : o.toNat + n.toNat ≤ 56)
    (hexec : exec (.mrdb o n) s = .next t) : t.responses = s.responses ++ 0x00 :: s.answers (8 + o) n.toNat := by
  obtain rfl := eq_of_exec hexec (exec_mrdb_of_inRange hrange s)
  rw [readSegments_eq hrange]
  split_ifs <;> rfl

/-- Settles O46: the block read returns the run of bytes the block write stored. -/
theorem scratchWriteReadsBack : Obligations.ScratchWriteReadsBack := by
  intro s t u o n data hwf horacle hlen hrange hwrite hread
  rw [← hlen] at hrange
  obtain ⟨htoracle, htresponses⟩ := exec_mwrb_ports hrange hwrite
  have haddr : (8 + o).toNat = 8 + o.toNat := by bv_omega
  have hmem : t.mem = Mem.writeList s.mem (8 + o).toNat data := by
    rw [eq_of_exec hwrite (exec_mwrb_of_inRange hrange s), haddr]
    exact writeSegments_mem hrange s
  have hanswers : t.answers (8 + o) data.length = data :=
    State.answers_of_stored (htoracle.trans horacle) hmem hwf (by omega)
  rw [exec_mrdb_responses (hlen ▸ hrange) hread, ← hlen, hanswers, htresponses]

end Sys2Proof.Machine
end

section
/-! PROOFS. The reset state (spec 10_state.md R37), the empty command port (00_scope.md R11), and the BCD functions from
the side of the valid BCD bytes (45_bcd_conversion.md R204, R205). -/

namespace Sys2Proof.Machine

/-- Settles O8, by `step_of_emptyPort`. -/
theorem emptyPortEndsTheRun : Obligations.EmptyPortEndsTheRun := fun _ => step_of_emptyPort

/-- Settles O10: the values `Config` and `Params.default` name are these. -/
theorem resetOfTheModelIsZero : Obligations.ResetOfTheModelIsZero := rfl

/-- A reset leaves the bus idle and its trace empty, so only the chip's bytes and the map can fail the invariant. -/
theorem State.resetWith_inv (pcb acb : Byte) (halted use24 : Bool) {chip : ChipState} {params : Params}
    (hmem : Mem.wf chip.mem = true) (hmap : params.freqCode.Injective) :
    (State.resetWith pcb acb halted use24 chip params).Inv :=
  ⟨hmem, rfl, hmap, nofun⟩

/-- Settles O11: the chip of `State.reset` holds nothing, and its map is the listing order. -/
theorem resetMeetsTheInvariant : Obligations.ResetMeetsTheInvariant :=
  ⟨State.resetWith_inv _ _ _ _ rfl (by decide), fun _ _ _ _ _ _ => State.resetWith_inv _ _ _ _⟩

theorem bcdValue_toNat {b : Byte} (h : IsBcd b) : (bcdValue b).toNat = b.toNat / 16 * 10 + b.toNat % 16 := by
  obtain ⟨htens, hunits⟩ := h
  rw [bcdValue, BitVec.toNat_ofNat, Nat.mod_eq_of_lt (by omega)]

theorem bcdValue_le {b : Byte} (h : IsBcd b) : (bcdValue b).toNat ≤ 99 := by
  obtain ⟨htens, hunits⟩ := id h
  rw [bcdValue_toNat h]
  omega

/-- Tens and units of a valid BCD byte's value are its nibbles again (45_bcd_conversion.md R205). -/
theorem bcdByte_bcdValue {b : Byte} (h : IsBcd b) : bcdByte (bcdValue b) = b := by
  obtain ⟨htens, hunits⟩ := id h
  apply BitVec.eq_of_toNat_eq
  rw [bcdByte_toNat (bcdValue_le h), bcdValue_toNat h]
  omega

/-- Settles O53, by the two round trips of the formulas. -/
theorem bcdFunctionsAreInverse : Obligations.BcdFunctionsAreInverse :=
  ⟨fun v hv => ⟨bcdByte v, toBcd_of_le hv, isBcd_bcdByte hv, ofBcd_bcdByte hv⟩,
    fun b hb => ⟨bcdValue b, ofBcd_of_isBcd hb, bcdValue_le hb, by
      rw [toBcd_of_le (bcdValue_le hb), bcdByte_bcdValue hb]⟩⟩

end Sys2Proof.Machine
end
